-- ==== Sys2Proof/Word.lean ====
section
/-!
DEFINITION. The machine's two word types (spec/00_scope.md R7) and the one arithmetic operation on words, addition
modulo 2^32 (R8). Everything else that is computed from them stands in Decode.lean or under Machine/.
-/
namespace Sys2Proof

/-- A byte: an unsigned integer in 0 to 255 (R7). -/
abbrev Byte := BitVec 8

/-- A word: an unsigned integer in 0 to 2^32 - 1 (R7), the width of every arithmetic operation (R5). -/
abbrev Word := BitVec 32

/-- `add32(x, y) = (x + y) mod 2^32` (R8). -/
def add32 (x y : Word) : Word := x + y

end Sys2Proof
end

