-- ==== Sys2Proof/Syntax.lean ====
section
/-!
DEFINITION. The commands: one constructor per row of spec/opcode_table.json (30_encoding.md R93). The `len` operand of the
V format is the length of the payload (R92), so it is not written a second time here; WellFormed.lean bounds it.
-/
namespace Sys2Proof

/-- The six commands (R13, R93). -/
inductive Instr where
  /-- `INIT`, opcode 0x00 (40_plain_commands.md R120). -/
  | init
  /-- `WRITE d`, opcode 0x01 (R122). -/
  | write (d : Byte)
  /-- `WRITEN len, p[0..len-1]`, opcode 0x02 (R124); `len` is `p.length`. -/
  | writen (p : List Byte)
  /-- `RESULT`, opcode 0x03 (R126). -/
  | result
  /-- `INIT_HMAC len, key[0..len-1]`, opcode 0x04 (43_hmac_commands.md R190); `len` is `key.length`. -/
  | initHmac (key : List Byte)
  /-- `RESULT_HMAC`, opcode 0x05 (R194). -/
  | resultHmac
  deriving DecidableEq, Repr

end Sys2Proof
end

