-- ==== Sys2Proof/WellFormed.lean ====
section
/-!
DEFINITION. What a command must satisfy to have an encoding: a payload length that the 16-bit `len` field can hold
(spec/30_encoding.md R92: "an unsigned 16-bit value, 0 to 65535"; 93_implementation_defined.md U12).
-/
namespace Sys2Proof

/-- The payload of a V-format command fits its 16-bit `len` field (R92). -/
def payloadFits (p : List Byte) : Bool := decide (p.length < 65536)

/-- Every other operand is bounded by its type. -/
def Instr.wellFormed : Instr → Bool
  | .init => true
  | .write _ => true
  | .writen p => payloadFits p
  | .result => true
  | .initHmac key => payloadFits key
  | .resultHmac => true

end Sys2Proof
end

