-- ==== Sys2Proof/Decode.lean ====
section
/-!
DEFINITION. The command stream's framing (spec/30_encoding.md R90 to R96): the opcode map, the decoder, total on every
byte string, and after it the encoder, both from the formats Z, B and V of R91. At the end, the reading of a word as
spec/opcode_table.json numbers its bits.
-/
namespace Sys2Proof

/-- The opcodes of R93, by name. -/
inductive Opcode where
  | init | write | writen | result | initHmac | resultHmac
  deriving DecidableEq, Repr

/-- The three formats of R91. -/
inductive Format where
  /-- opcode only -/
  | z
  /-- opcode and one data byte -/
  | b
  /-- opcode, 16-bit length, payload -/
  | v
  deriving DecidableEq, Repr

/-- What the decoder finds at the front of the command stream. -/
inductive Decoded where
  /-- A complete frame: the command, and the stream after the frame. -/
  | command (i : Instr) (rest : List Byte)
  /-- The stream ends before the last byte of the frame, or is empty: the engine holds (R95). -/
  | held
  /-- A reserved opcode at a command boundary (R94). -/
  | reserved (op : Byte)
  deriving DecidableEq, Repr

/-- The opcode map of R93, all eight bits of byte 0; 0x06 to 0xFF are reserved (R94). -/
def Opcode.ofByte (op : Byte) : Option Opcode :=
  match op.toNat with
  | 0 => some .init
  | 1 => some .write
  | 2 => some .writen
  | 3 => some .result
  | 4 => some .initHmac
  | 5 => some .resultHmac
  | _ => none

/-- The opcode column of R93. -/
def Opcode.toByte : Opcode → Byte
  | .init => 0x00
  | .write => 0x01
  | .writen => 0x02
  | .result => 0x03
  | .initHmac => 0x04
  | .resultHmac => 0x05

/-- The format column of R93. -/
def Opcode.format : Opcode → Format
  | .init => .z
  | .write => .b
  | .writen => .v
  | .result => .z
  | .initHmac => .v
  | .resultHmac => .z

/-- `len = (byte1 << 8) | byte2`, big-endian, unsigned, unscaled (R92). -/
def lenOfBytes (hi lo : Byte) : Nat := (hi ++ lo).toNat

/-- The two bytes `v[15:8]`, `v[7:0]` of a 16-bit big-endian quantity (R92, R97). -/
def be16 (v : Nat) : List Byte :=
  [(BitVec.ofNat 16 v).extractLsb' 8 8, (BitVec.ofNat 16 v).extractLsb' 0 8]

/-- The operands of a V-format command: two length bytes, then exactly `len` payload bytes (R91, R92, R96). -/
def decodePayload (build : List Byte → Instr) (bytes : List Byte) : Decoded :=
  match bytes with
  | hi :: lo :: rest =>
    if lenOfBytes hi lo ≤ rest.length then
      .command (build (rest.take (lenOfBytes hi lo))) (rest.drop (lenOfBytes hi lo))
    else .held
  | _ => .held

/-- The data byte of a B-format command (R91). -/
def decodeData (build : Byte → Instr) (bytes : List Byte) : Decoded :=
  match bytes with
  | d :: rest => .command (build d) rest
  | [] => .held

/-- `decode` of R96, with the hold of R95 and the refusal of R94. -/
def decode (bytes : List Byte) : Decoded :=
  match bytes with
  | [] => .held
  | op :: rest =>
    match Opcode.ofByte op with
    | none => .reserved op
    | some .init => .command .init rest
    | some .write => decodeData .write rest
    | some .writen => decodePayload .writen rest
    | some .result => .command .result rest
    | some .initHmac => decodePayload .initHmac rest
    | some .resultHmac => .command .resultHmac rest

/-- The bytes of a command (R91, R93, R98). -/
def encode : Instr → List Byte
  | .init => [Opcode.init.toByte]
  | .write d => [Opcode.write.toByte, d]
  | .writen p => Opcode.writen.toByte :: (be16 p.length ++ p)
  | .result => [Opcode.result.toByte]
  | .initHmac key => Opcode.initHmac.toByte :: (be16 key.length ++ key)
  | .resultHmac => [Opcode.resultHmac.toByte]

/-- `length(cmd)` of R96 for a command. -/
def Instr.frameLength : Instr → Nat
  | .init => 1
  | .write _ => 2
  | .writen p => 3 + p.length
  | .result => 1
  | .initHmac key => 3 + key.length
  | .resultHmac => 1

/-- `length(cmd)` of R96 told from the leading bytes, a missing one counting as zero; a reserved opcode has no frame
length, and only the bytes that are there are taken. -/
def leadFrameLength (lead : List Byte) : Nat :=
  match (Opcode.ofByte (lead.getD 0 0)).map Opcode.format with
  | some .z => 1
  | some .b => 2
  | some .v => 3 + lenOfBytes (lead.getD 1 0) (lead.getD 2 0)
  | none => lead.length

/-- The bytes of a table word: bit 0 is the least significant bit of the first byte, the second byte is bits 15..8. -/
def tableBytes (nbits w : Nat) : List Byte :=
  (List.range ((nbits + 7) / 8)).map fun i => BitVec.ofNat 8 (w / 2 ^ (8 * i))

/-- The whole frame of a table word: the bits above `nbits` are zero, up to the end of the frame. -/
def tableFrame (nbits w : Nat) : List Byte :=
  tableBytes nbits w
    ++ List.replicate (leadFrameLength (tableBytes nbits w) - (tableBytes nbits w).length) 0

/-- The command this decoder reads from a word numbered as spec/opcode_table.json numbers it. -/
def decodeTableWord (nbits w : Nat) : Option Instr :=
  match decode (tableFrame nbits w) with
  | .command i _ => some i
  | .held => none
  | .reserved _ => none

end Sys2Proof
end

