-- ==== Sys2Proof/Config.lean ====
section
/-!
DEFINITION. The free values: what spec/ writes as `any` (00_scope.md R11: "a value the spec does not fix"). Each is an
opaque constant with no body, so nothing in Lean can evaluate it or prove a value of it; a claim about one holds for
every value. They are numbered by the counter `draws` of State (notes/assumptions/2.md). The implementation-decided
parameters of the spec are all fixed by it (R5, R6), so there is no other configuration.
-/
namespace Sys2Proof

/-- The free byte of draw number `n`: a byte of `B`, `K`, `IH`, of a misused result's response, or of `DIGEST` read
outside FINAL. -/
opaque Config.freeByte (n : Nat) : Byte

/-- The free word of draw number `n`: a word of `H`, or `cnt`. -/
opaque Config.freeWord (n : Nat) : Word

/-- The free buffer offset of draw number `n`: "any value in 0 to 63" (60_exceptions.md R213). -/
opaque Config.freeOffset (n : Nat) : Fin 64

/-- The `count` free bytes of the draws `start`, `start + 1`, ... -/
def Config.freeBytes (count start : Nat) : Vector Byte count :=
  Vector.ofFn fun i => Config.freeByte (start + i.val)

end Sys2Proof
end

