-- ==== Sys2Proof/Machine/State.lean ====
section
/-!
DEFINITION. The state of the engine as plain data: every element of the table of spec/10_state.md R18, the host's
unconsumed command bytes, and the counter that numbers the free values. The reasons a step can stop, and the state right
after reset (R42).
-/
namespace Sys2Proof.Machine

/-- The life-cycle position (R27). -/
inductive Phase where
  /-- UNINIT: no init since reset. -/
  | uninit
  /-- ACCUM: an init has been done and no result since. -/
  | accum
  /-- FINAL: a result has been produced and no init since. -/
  | final
  deriving DecidableEq, Repr

/-- Which init started the current computation (R28). -/
inductive Mode where
  | plain
  | hmac
  deriving DecidableEq, Repr

/-- The five 32-bit registers `H[0..4]` of the hash state (R20). -/
structure Chain where
  h0 : Word
  h1 : Word
  h2 : Word
  h3 : Word
  h4 : Word
  deriving DecidableEq, Repr

/-- The engine raises no exception: "The complete list of exception causes is therefore empty" (60_exceptions.md R210).
So the type has no constructor, nothing raises one, and no step can answer a fault. Safe: there is nothing to raise. -/
inductive Fault
  deriving DecidableEq, Repr

/-- Why a step has no meaning. -/
inductive Refusal where
  /-- An arm of `exec` that has no meaning yet, by its mnemonic. Raised by no arm of this model. Safe. -/
  | notModelled (mnemonic : String)
  /-- A reserved opcode, 0x06 to 0xFF, at a command boundary (30_encoding.md R94). Raised by `step`, never by a
  command. Safe: the model stops, as R94 asks of it, where the hardware's state would be `any`. -/
  | reservedOpcode (op : Byte)
  deriving DecidableEq, Repr

/-- The state between commands. -/
structure State where
  /-- `H[0..4]`, the hash state (R20). -/
  h : Chain
  /-- The model's own mark: `H` is `any`, so that every read of it draws afresh (00_scope.md R11). Set where the spec writes
  `H[i] <- any` (reset, `misuse()`), cleared where it writes values (`InitOps`, `COMPRESS`) (notes/assumptions/2.md). -/
  hAny : Bool
  /-- `B[0..63]`, the block buffer (R22). -/
  b : Vector Byte 64
  /-- `off`, the buffer offset, 0 to 63 between commands (R23). -/
  off : Fin 64
  /-- `cnt`, the byte counter (R24). -/
  cnt : Word
  /-- `K[0..63]`, the HMAC key buffer (R25). -/
  k : Vector Byte 64
  /-- `IH[0..19]`, the inner-hash buffer (R26). -/
  ih : Vector Byte 20
  /-- `phase` (R27). -/
  phase : Phase
  /-- `mode` (R28). -/
  mode : Mode
  /-- `misuse`, the sticky bit (R29). -/
  misuse : Bool
  /-- `RSP`, the response bytes the host has not taken yet, oldest first (R32). -/
  rsp : List Byte
  /-- `CMD`, the command bytes the host has sent and the engine has not consumed, oldest first (R33): the host's, not
  engine state; the step reads it here (notes/assumptions/3.md). -/
  cmd : List Byte
  /-- The model's own counter: the number of free values drawn so far (notes/assumptions/2.md). -/
  draws : Nat
  deriving DecidableEq, Repr

/-- Five free words. -/
def Chain.free (start : Nat) : Chain where
  h0 := Config.freeWord start
  h1 := Config.freeWord (start + 1)
  h2 := Config.freeWord (start + 2)
  h3 := Config.freeWord (start + 3)
  h4 := Config.freeWord (start + 4)

/-- The draws that give every data element a free value: `B`, `K` and `IH` use 64 + 64 + 20 bytes. -/
def dataDraws : Nat := 148

/-- The state a reset leaves (R42, R240), its data elements drawn from draw number `start` on. What is stored in them is not
read by the machine: `H` is marked, and the others are written before any command reads them (notes/assumptions/2.md). -/
def State.afterReset (start : Nat) : State where
  h := Chain.free start
  hAny := true
  b := Config.freeBytes 64 start
  off := Config.freeOffset start
  cnt := Config.freeWord (start + 5)
  k := Config.freeBytes 64 (start + 64)
  ih := Config.freeBytes 20 (start + 128)
  phase := .uninit
  mode := .plain
  misuse := false
  rsp := []
  cmd := []
  draws := start + dataDraws

/-- The machine right after reset (R42): the flags as stated, RSP empty, every data element a free value
(notes/assumptions/1.md). -/
def State.reset : State := State.afterReset 0

end Sys2Proof.Machine
end

