-- ==== Sys2Proof/Machine/Operands.lean ====
section
/-!
DEFINITION. The forms in which data moves between bytes, words and byte strings: `rol32`, `be32`, `byte_k`
(spec/00_scope.md R9, R10), the length trailer (42_padding_digest.md R171), the digest bytes `SER` (R175), the zero-padded
key block (43_hmac_commands.md R190, R191) and the XOR with a repeated pad byte (R190, R195).
-/
namespace Sys2Proof.Machine

/-- `rol32(x, n)`: the amount is taken modulo 32 and 0 is the identity (R9). -/
def rol32 (x : Word) (n : Nat) : Word :=
  if n % 32 = 0 then x else (x <<< (n % 32)) ||| (x >>> (32 - n % 32))

/-- `be32(b0, b1, b2, b3)`: the first byte is the most significant (R10). -/
def be32 (b0 b1 b2 b3 : Byte) : Word := b0 ++ b1 ++ b2 ++ b3

/-- `byte_k(x) = x[31-8k : 24-8k]` for `k` in 0 to 3 (R10): `byte_0` is the most significant byte. -/
def byteOf (k : Nat) (x : Word) : Byte := x.extractLsb' (24 - 8 * k) 8

/-- `H[i]` for `i` in 0 to 4 (R20). -/
def Chain.word (c : Chain) (i : Nat) : Word :=
  match i with
  | 0 => c.h0
  | 1 => c.h1
  | 2 => c.h2
  | 3 => c.h3
  | _ => c.h4

/-- `SER(H)[4i + k] = byte_k(H[i])` (R175). -/
def ser (c : Chain) : Vector Byte 20 :=
  Vector.ofFn fun n => byteOf (n.val % 4) (c.word (n.val / 4))

/-- `L = zext_64(cnt) * 8`, formed without truncation (R171, 92_eei_decisions.md D12). -/
def bitLength (cnt : Word) : BitVec 64 := cnt.zeroExtend 64 * 8

/-- `T[j] = L[63-8j : 56-8j]` for `j` in 0 to 7, most significant byte first (R171). -/
def be64 (v : BitVec 64) : List Byte :=
  (List.range 8).map fun j => v.extractLsb' (56 - 8 * j) 8

/-- The eight trailer bytes (R171). -/
def trailer (cnt : Word) : List Byte := be64 (bitLength cnt)

/-- A byte string in the first positions of a 64-byte block, the rest zero (R190, R191). -/
def zeroPad (bytes : List Byte) : Vector Byte 64 :=
  Vector.ofFn fun i => bytes.getD i.val 0

/-- Every byte of a 64-byte block XORed with `c` (R190, R195). -/
def xorBlock (c : Byte) (block : Vector Byte 64) : Vector Byte 64 :=
  block.map fun x => x ^^^ c

/-- The inner pad byte (R5). -/
def ipadByte : Byte := 0x36

/-- The outer pad byte (R5). -/
def opadByte : Byte := 0x5C

/-- `0x36 ^ 0x5C = 0x6A`, which turns ipad into opad (R195). -/
def ipadToOpad : Byte := 0x6A

end Sys2Proof.Machine
end

