-- ==== Sys2Proof/Machine/Compress.lean ====
section
/-!
DEFINITION. The message scheduler and the compression engine of spec/41_compression.md: schedule (R144, R145), stage
functions and constants (R146 to R148), round (R150, R152), feed-forward (R154), and the whole as the pure function
`COMPRESS_FN` (R156). The initial words `IV` are 10_state.md R21.
-/
namespace Sys2Proof.Machine

/-- `IV[0..4]` (R21). -/
def iv : Chain where
  h0 := 0x67452301
  h1 := 0xEFCDAB89
  h2 := 0x98BADCFE
  h3 := 0x10325476
  h4 := 0xC3D2E1F0

/-- `BufWord(t) = be32(B[4t], B[4t+1], B[4t+2], B[4t+3])` for `t` in 0 to 15 (20_memory.md R63). -/
def bufWord (b : Vector Byte 64) (t : Fin 16) : Word :=
  be32 b[4 * t.val] b[4 * t.val + 1] b[4 * t.val + 2] b[4 * t.val + 3]

/-- `W[t]` from the schedule so far, NEWEST WORD FIRST: `W[t-3]` is at index 2, `W[t-16]` at index 15 (R145). -/
def nextWord (newestFirst : List Word) : Word :=
  rol32 (newestFirst.getD 2 0 ^^^ newestFirst.getD 7 0 ^^^ newestFirst.getD 13 0 ^^^ newestFirst.getD 15 0) 1

/-- `n` more schedule words, in increasing order of `t` (R145). -/
def expand (n : Nat) (newestFirst : List Word) : List Word :=
  match n with
  | 0 => newestFirst
  | n + 1 => expand n (nextWord newestFirst :: newestFirst)

/-- `W[0..79]`, in order (R144, R145). -/
def schedule (b : Vector Byte 64) : List Word :=
  (expand 64 (List.ofFn (bufWord b)).reverse).reverse

/-- `Ch`: the bit of `y` where `x` has 1, the bit of `z` where it has 0 (R148). -/
def ch (x y z : Word) : Word := (x &&& y) ||| (~~~x &&& z)

/-- `Parity` (R148). -/
def parity (x y z : Word) : Word := x ^^^ y ^^^ z

/-- `Maj` (R148). -/
def maj (x y z : Word) : Word := (x &&& y) ||| (x &&& z) ||| (y &&& z)

/-- `s(t) = t div 20` (R146). -/
def stageOf (t : Nat) : Nat := t / 20

/-- `f(s, x, y, z)` for stages 0 to 3: Ch, Parity, Maj, Parity (R148). -/
def stageFn (s : Nat) (x y z : Word) : Word :=
  match s with
  | 0 => ch x y z
  | 1 => parity x y z
  | 2 => maj x y z
  | _ => parity x y z

/-- `KS[s]` for stages 0 to 3 (R147). -/
def stageConst (s : Nat) : Word :=
  match s with
  | 0 => 0x5A827999
  | 1 => 0x6ED9EBA1
  | 2 => 0x8F1BBCDC
  | _ => 0xCA62C1D6

/-- The five working variables of one COMPRESS; not state (R34). -/
structure Working where
  a : Word
  b : Word
  c : Word
  d : Word
  e : Word
  deriving DecidableEq, Repr

/-- `a..e = H[0..4]` before round 0 (R150). -/
def loadWorking (c : Chain) : Working where
  a := c.h0
  b := c.h1
  c := c.h2
  d := c.h3
  e := c.h4

/-- `temp` of round `t` (R152): a five-term sum modulo 2^32. -/
def roundTemp (t : Nat) (w : Word) (v : Working) : Word :=
  add32 (add32 (add32 (add32 (rol32 v.a 5) (stageFn (stageOf t) v.b v.c v.d)) v.e) (stageConst (stageOf t))) w

/-- Round `t` with schedule word `w`: `(a, b, c, d, e) <- (temp, a, rol32(b, 30), c, d)` (R152). -/
def round (t : Nat) (w : Word) (v : Working) : Working where
  a := roundTemp t w v
  b := v.a
  c := rol32 v.b 30
  d := v.c
  e := v.d

/-- The rounds from `t` on, one per schedule word left (R152). -/
def rounds (t : Nat) (ws : List Word) (v : Working) : Working :=
  match ws with
  | [] => v
  | w :: rest => rounds (t + 1) rest (round t w v)

/-- `H[i] <- (H[i] + working variable i) mod 2^32` (R154). -/
def feedForward (c : Chain) (v : Working) : Chain where
  h0 := add32 c.h0 v.a
  h1 := add32 c.h1 v.b
  h2 := add32 c.h2 v.c
  h3 := add32 c.h3 v.d
  h4 := add32 c.h4 v.e

/-- `COMPRESS_FN(h, block)` (R156). Irreducible, so that no unification unfolds eighty rounds. -/
@[irreducible] def compressFn (c : Chain) (block : Vector Byte 64) : Chain :=
  feedForward c (rounds 0 (schedule block) (loadWorking c))

end Sys2Proof.Machine
end

