-- ==== Sys2Proof/Machine/Ops.lean ====
section
/-!
DEFINITION. The named operations on the state that the commands are made of: the response stream (spec/30_encoding.md R97),
the block buffer and COMPRESS (20_memory.md R62, 41_compression.md R155, R156), APPEND and PAD (42_padding_digest.md R170,
R172), InitOps, WriteOp and Finish (40_plain_commands.md R121, R123, R127), the key and inner-hash buffers, and
`misuse()` (60_exceptions.md R213), which stands where another machine takes an exception: the engine has none (R210, R217).
-/
namespace Sys2Proof.Machine

/-- `emit(v)`: append bytes to RSP (00_scope.md R11). -/
def State.emit (s : State) (bytes : List Byte) : State := { s with rsp := s.rsp ++ bytes }

/-- `emit(any n bytes)`: free bytes (R126, R194, R213). -/
def State.emitAny (s : State) (n : Nat) : State :=
  { s with rsp := s.rsp ++ (Config.freeBytes n s.draws).toList, draws := s.draws + n }

/-- `BufWrite(i, d)`: `B[i] <- d` and nothing else (R62). -/
def State.bufWrite (s : State) (i : Fin 64) (d : Byte) : State := { s with b := s.b.set i.val d }

/-- `off <- i` (R23). -/
def State.setOff (s : State) (i : Fin 64) : State := { s with off := i }

/-- What COMPRESS leaves (R155): the hash state `c`, and `B[i] <- any` for every `i`. The bytes stored are not read: every
one is written again before the next COMPRESS (10_state.md R36, notes/assumptions/2.md). -/
def State.afterBlock (s : State) (c : Chain) : State :=
  { s with
    h := c
    hAny := false
    b := Config.freeBytes 64 s.draws
    draws := s.draws + 64 }

/-- `COMPRESS()` (R156), on the 64 bytes of `B` and the words `H`. -/
def State.compress (s : State) : State := s.afterBlock (compressFn s.h s.b)

/-- `APPEND(d)`: store at `off`, advance `off`, and at 64 compress and return to 0 (R170). -/
def State.append (s : State) (d : Byte) : State :=
  if s.off.val + 1 = 64 then (s.bufWrite s.off d).compress.setOff 0
  else (s.bufWrite s.off d).setOff (s.off + 1)

/-- One APPEND per byte, in order. -/
def State.appendBytes (s : State) (bytes : List Byte) : State :=
  match bytes with
  | [] => s
  | d :: rest => (s.append d).appendBytes rest

/-- `cnt <- v`. -/
def State.setCnt (s : State) (v : Word) : State := { s with cnt := v }

/-- `WriteOp(d)`: the counted write; `cnt` wraps modulo 2^32 (R123, R24). -/
def State.writeOp (s : State) (d : Byte) : State := (s.append d).setCnt (add32 s.cnt 1)

/-- One WriteOp per byte, in order (R124). -/
def State.writeBytes (s : State) (bytes : List Byte) : State :=
  match bytes with
  | [] => s
  | d :: rest => (s.writeOp d).writeBytes rest

/-- `InitOps()`: `cnt`, `off` and `H`, and nothing else (R121). The spec says both that `B` is not changed and that it reads
as `any` from here on (R120, 10_state.md R22); the model's choice is to keep the old bytes in the field, where no command
reads them before it has written them (notes/assumptions/17.md). -/
def State.initOps (s : State) : State := { s with cnt := 0, off := 0, h := iv, hAny := false }

/-- `while off != 56: APPEND(0x00)` (R172), with `fuel` bounding the loop: it ends after at most 63 steps. -/
def State.padZeros (fuel : Nat) (s : State) : State :=
  match fuel with
  | 0 => s
  | fuel + 1 => if s.off.val = 56 then s else State.padZeros fuel (s.append 0x00)

/-- `PAD()` (R172): the byte 0x80, zeros until `off` is 56, the trailer of `cnt`; `cnt` itself is not changed (R176). -/
def State.pad (s : State) : State :=
  (State.padZeros 64 (s.append 0x80)).appendBytes (trailer s.cnt)

/-- `Finish()` (R127) leaves this state; the digest it returns is `SER(H)` of it. -/
def State.finish (s : State) : State := s.pad

/-- A read of `H` from outside a command: its words, or, while it is `any`, five fresh free words at every read (00_scope.md
R11). -/
def State.readChain (s : State) : Chain × State :=
  if s.hAny then (Chain.free s.draws, { s with draws := s.draws + 5 }) else (s.h, s)

/-- The digest bytes of the hash state, which `Finish()` returns (R127, R175). -/
def State.digestBytes (s : State) : Vector Byte 20 := ser s.h

/-- `K[i] <- block[i]` for all 64 `i` (R190). -/
def State.setKey (s : State) (block : Vector Byte 64) : State := { s with k := block }

/-- `K[i] <- K[i] ^ c` for all 64 `i` (R190, R194). -/
def State.xorKey (s : State) (c : Byte) : State := s.setKey (xorBlock c s.k)

/-- `IH[j] <- dg[j]` for all 20 `j` (R194). -/
def State.setInner (s : State) (dg : Vector Byte 20) : State := { s with ih := dg }

/-- Step 1 of INIT_HMAC, the key block (R190, R191): a key longer than 64 bytes is hashed first, on the engine's own
`H`, `B`, `off` and `cnt` (70_reset_and_hazards.md R246). -/
def State.loadKeyBlock (s : State) (key : List Byte) : State :=
  if key.length > 64 then
    (s.initOps.writeBytes key).finish.setKey (zeroPad (s.initOps.writeBytes key).finish.digestBytes.toList)
  else s.setKey (zeroPad key)

/-- `InitOps()` and then the 64 bytes of `K` through the normal write path (R190 step 3, R194). -/
def State.feedKey (s : State) : State := s.initOps.writeBytes s.k.toList

/-- `misuse()` (R213): the sticky bit is set and every data element becomes a free value, `H` marked as drawn at every read.
`phase` and `mode` are not written, nothing is saved, and control goes nowhere. -/
def State.takeMisuse (s : State) : State :=
  { s with
    misuse := true
    h := Chain.free s.draws
    hAny := true
    b := Config.freeBytes 64 s.draws
    off := Config.freeOffset s.draws
    cnt := Config.freeWord (s.draws + 5)
    k := Config.freeBytes 64 (s.draws + 64)
    ih := Config.freeBytes 20 (s.draws + 128)
    draws := s.draws + dataDraws }

end Sys2Proof.Machine
end

