-- ==== Sys2Proof/Machine/Flags.lean ====
section
/-!
DEFINITION. The life-cycle flags (spec/10_state.md R27 to R29): how an init and a result move them, the legality table of
60_exceptions.md R212, and the view `STATUS` (R30). The engine has no arithmetic flags.
-/
namespace Sys2Proof.Machine

/-- `phase <- ACCUM; mode <- m`: the end of INIT and INIT_HMAC (R120, R190). -/
def State.begun (s : State) (m : Mode) : State := { s with phase := .accum, mode := m }

/-- `phase <- FINAL` (R126, R194, R199). -/
def State.finalized (s : State) : State := { s with phase := .final }

/-- The table of R212: true exactly where the command is a misuse. -/
def isMisuse (i : Instr) (phase : Phase) (mode : Mode) : Bool :=
  match i with
  | .init => false
  | .initHmac _ => false
  | .write _ => decide (phase ≠ .accum)
  | .writen p => decide (p.length ≠ 0 ∧ phase ≠ .accum)
  | .result => decide (phase ≠ .accum)
  | .resultHmac => decide (phase ≠ .accum ∨ mode ≠ .hmac)

/-- `STATUS[1:0]` (R30); 0b11 is never produced. -/
def Phase.code : Phase → BitVec 2
  | .uninit => 0b00
  | .accum => 0b01
  | .final => 0b10

/-- `STATUS[2]` (R30). -/
def Mode.code : Mode → BitVec 1
  | .plain => 0
  | .hmac => 1

/-- The 8-bit view `STATUS` (R30): bits [7:4] read as 0. -/
def State.status (s : State) : Byte :=
  (0#4 : BitVec 4) ++ BitVec.ofBool s.misuse ++ s.mode.code ++ s.phase.code

end Sys2Proof.Machine
end

