-- ==== Sys2Proof/Machine/Hmac.lean ====
section
/-!
DEFINITION. The HMAC controller's commands INIT_HMAC and RESULT_HMAC (spec/43_hmac_commands.md R190 to R199).
-/
namespace Sys2Proof.Machine

/-- `INIT_HMAC len, key` (R190): legal in every phase and mode. -/
def execInitHmac (key : List Byte) (s : State) : Host.Outcome State Fault Refusal :=
  .next (((s.loadKeyBlock key).xorKey ipadByte).feedKey.begun .hmac)

/-- The inner half of RESULT_HMAC (R194): finish the inner hash, keep its digest in `IH`, turn `K` from ipad to opad. -/
def State.closeInner (s : State) : State :=
  (s.finish.setInner s.finish.digestBytes).xorKey ipadToOpad

/-- The outer half of RESULT_HMAC (R194): a fresh hash of the 64 bytes of `K` and the 20 bytes of `IH`. -/
def State.runOuter (s : State) : State := (s.feedKey.writeBytes s.ih.toList).finish

/-- `RESULT_HMAC` (R194): legal when `phase = ACCUM` and `mode = HMAC`; as a misuse in phase ACCUM it still moves to
FINAL (R199). -/
def execResultHmac (s : State) : Host.Outcome State Fault Refusal :=
  if s.phase = .accum then
    if s.mode = .hmac then
      .next (s.closeInner.runOuter.finalized.emit s.closeInner.runOuter.digestBytes.toList)
    else .next (s.takeMisuse.finalized.emitAny 20)
  else .next (s.takeMisuse.emitAny 20)

end Sys2Proof.Machine
end

