-- ==== Sys2Proof/Machine/Plain.lean ====
section
/-!
DEFINITION. The plain SHA-1 commands INIT, WRITE, WRITEN and RESULT (spec/40_plain_commands.md R120 to R127).
-/
namespace Sys2Proof.Machine

/-- `INIT` (R120): legal in every phase and mode. -/
def execInit (s : State) : Host.Outcome State Fault Refusal := .next (s.initOps.begun .plain)

/-- `WRITE d` (R122): the count 1 is emitted in both cases. -/
def execWrite (d : Byte) (s : State) : Host.Outcome State Fault Refusal :=
  if s.phase = .accum then .next ((s.writeOp d).emit (be16 1))
  else .next (s.takeMisuse.emit (be16 1))

/-- `WRITEN len, p` (R124): the test `len = 0` comes before the phase test (60_exceptions.md R216), a misuse happens once,
and the count `len` is emitted in all cases. -/
def execWriten (p : List Byte) (s : State) : Host.Outcome State Fault Refusal :=
  if p.length = 0 then .next (s.emit (be16 p.length))
  else if s.phase = .accum then .next ((s.writeBytes p).emit (be16 p.length))
  else .next (s.takeMisuse.emit (be16 p.length))

/-- `RESULT` (R126): legal when `phase = ACCUM`, in either mode (43_hmac_commands.md R198). -/
def execResult (s : State) : Host.Outcome State Fault Refusal :=
  if s.phase = .accum then .next (s.finish.finalized.emit s.finish.digestBytes.toList)
  else .next (s.takeMisuse.emitAny 20)

end Sys2Proof.Machine
end

