-- ==== Sys2Proof/Machine/Dispatch.lean ====
section
/-!
DEFINITION. One arm per command: its meaning (spec/30_encoding.md R93).
-/
namespace Sys2Proof.Machine

def exec (i : Instr) (s : State) : Host.Outcome State Fault Refusal :=
  match i with
  | .init => Sys2Proof.Machine.execInit s
  | .write d => Sys2Proof.Machine.execWrite d s
  | .writen p => Sys2Proof.Machine.execWriten p s
  | .result => Sys2Proof.Machine.execResult s
  | .initHmac key => Sys2Proof.Machine.execInitHmac key s
  | .resultHmac => Sys2Proof.Machine.execResultHmac s

end Sys2Proof.Machine
end

