-- ==== Sys2Proof/Machine/HostPort.lean ====
section
/-!
DEFINITION. What the host can do to the engine from outside the command step (spec/10_state.md R30 to R33,
70_reset_and_hazards.md R240, R245): send command bytes, take response bytes, read the two views, apply reset.
-/
namespace Sys2Proof.Machine

/-- The host sends command bytes (R33, R90). -/
def State.hostSend (s : State) (bytes : List Byte) : State := { s with cmd := s.cmd ++ bytes }

/-- The host takes up to `n` bytes from the front of RSP (R32): the bytes, and the state without them. -/
def State.hostTake (s : State) (n : Nat) : List Byte × State :=
  (s.rsp.take n, { s with rsp := s.rsp.drop n })

/-- The host reads `STATUS` (R30). It is offered only between commands, when every byte sent has been consumed
(00_scope.md R12, 20_memory.md R71, notes/assumptions/5.md). -/
def State.readStatus (s : State) : Option Byte :=
  if s.cmd.isEmpty then some s.status else none

/-- The host reads `DIGEST` (R31), offered as `STATUS` is: `SER(H)` when `phase = FINAL`, where `H` is read afresh, so that
after a misuse every read draws (60_exceptions.md R213); and otherwise 20 free bytes, fresh at every read. Only the model's
draw counter can move. -/
def State.readDigest (s : State) : Option (Vector Byte 20 × State) :=
  if s.cmd.isEmpty then
    if s.phase = .final then some (ser s.readChain.1, s.readChain.2)
    else some (Config.freeBytes 20 s.draws, { s with draws := s.draws + 20 })
  else none

/-- The host applies reset, at any time (R240): the flags and RSP as R42 states, bytes sent and not yet executed
discarded, every data element a fresh free value. -/
def State.applyReset (s : State) : State := State.afterReset s.draws

end Sys2Proof.Machine
end

