-- ==== Sys2Proof/Machine/Step.lean ====
section
/-!
DEFINITION. One step of the engine: take the command at the front of CMD, consume its frame and execute it whole
(spec/30_encoding.md R90, R95, R96; 00_scope.md R12).
-/
namespace Sys2Proof.Machine

/-- The state after the frame at the front of CMD has been consumed, before the command runs (R96: the position in the
stream advances by the frame's length). -/
def State.consumed (s : State) (rest : List Byte) : State := { s with cmd := rest }

/-- One step. A truncated frame, or no byte at all, holds with nothing changed (R95, R241); a reserved opcode is refused
before any state is looked at (R94, R216). -/
def step (s : State) : Host.Outcome State Fault Refusal :=
  match decode s.cmd with
  | .command i rest => exec i (s.consumed rest)
  | .held => .next s
  | .reserved op => .refused (.reservedOpcode op)

/-- The frame of a table word put at the front of CMD, before the bytes already there; the frame ends with the command,
so no zero byte after it reaches the decoder. -/
def State.withFetchWord (s : State) (nbits w : Nat) : State :=
  { s with cmd := tableFrame nbits w ++ s.cmd }

end Sys2Proof.Machine
end

