-- ==== Sys2Proof/Machine/Pseudo.lean ====
section
/-!
DEFINITION. The assembler's view of the commands (spec/30_encoding.md R98, R99): the text of a command, and the four
pseudo-instructions, each a fixed expansion into commands. None has an opcode, and none is known to the decoder.
-/
namespace Sys2Proof

/-- The mnemonic column of R93 and R98. -/
def Instr.mnemonic : Instr → String
  | .init => "INIT"
  | .write _ => "WRITE"
  | .writen _ => "WRITEN"
  | .result => "RESULT"
  | .initHmac _ => "INIT_HMAC"
  | .resultHmac => "RESULT_HMAC"

/-- A byte operand as `0x` and two hexadecimal digits (R98). -/
def byteText (b : Byte) : String :=
  "0x" ++ String.ofList [Nat.digitChar (b.toNat / 16), Nat.digitChar (b.toNat % 16)]

/-- `MNEMONIC operands`, the operands given as bytes; the assembler computes `len` (R98). -/
def Instr.assembly (i : Instr) : String :=
  match i with
  | .init => i.mnemonic
  | .write d => i.mnemonic ++ " " ++ byteText d
  | .writen p => p.foldl (fun text b => text ++ " " ++ byteText b) i.mnemonic
  | .result => i.mnemonic
  | .initHmac key => key.foldl (fun text b => text ++ " " ++ byteText b) i.mnemonic
  | .resultHmac => i.mnemonic

/-- `SHA1 m`, for `m` of at most 65535 bytes (R99). -/
def pseudoSha1 (m : List Byte) : List Instr := [.init, .writen m, .result]

/-- `HMAC k, m`, for a key of at most 65535 bytes (R99). -/
def pseudoHmac (key m : List Byte) : List Instr := [.initHmac key, .writen m, .resultHmac]

/-- `WRITEB m`: one WRITE per byte (R99). -/
def pseudoWriteb (m : List Byte) : List Instr := m.map Instr.write

/-- `WRITEL m`: WRITEN of the first 65535 bytes, then WRITEL of the rest; at most `pieces` pieces. R99 gives the expansion
only for more than 65535 bytes; the model's choice for a message, or a rest, of at most 65535 bytes is one WRITEN of it, also
when it is empty (notes/assumptions/18.md). -/
def writelPieces (pieces : Nat) (m : List Byte) : List Instr :=
  match pieces with
  | 0 => [.writen m]
  | pieces + 1 =>
    if m.length ≤ 65535 then [.writen m]
    else .writen (m.take 65535) :: writelPieces pieces (m.drop 65535)

/-- `WRITEL m` (R99), `m` of at most 65535 bytes included by the model's choice (notes/assumptions/18.md); `m.length` pieces
are always enough. -/
def pseudoWritel (m : List Byte) : List Instr := writelPieces m.length m

end Sys2Proof
end

