-- ==== Sys2Proof/Machine/Reference.lean ====
section
/-!
DEFINITION. What the commands compute, as functions of byte strings and without any engine state: the padded message and
its digest (spec/40_plain_commands.md R128, 70_reset_and_hazards.md R248) and the HMAC value (43_hmac_commands.md R191,
R197). Claims compare the engine with these; no command uses them.
-/
namespace Sys2Proof.Machine

/-- Block number `n` of a byte string: its bytes `64n` to `64n + 63`. -/
def blockAt (bytes : List Byte) (n : Nat) : Vector Byte 64 := zeroPad (bytes.drop (64 * n))

/-- `fold(COMPRESS_FN, c, blocks)` over the first `n` blocks (R128). -/
def foldBlocks (n : Nat) (c : Chain) (bytes : List Byte) : Chain :=
  match n with
  | 0 => c
  | n + 1 => compressFn (foldBlocks n c bytes) (blockAt bytes n)

/-- The hash state after the full blocks of a byte string, from `IV`. -/
def hashBlocks (bytes : List Byte) : Chain := foldBlocks (bytes.length / 64) iv bytes

/-- `z = (55 - n) mod 64` (R128, R173). -/
def padZeroCount (n : Nat) : Nat := (119 - n % 64) % 64

/-- `0x80 ++ 0x00^z ++ be64(bits)` for a message of `n` bytes (R128). -/
def padding (n : Nat) (bits : BitVec 64) : List Byte :=
  0x80 :: (List.replicate (padZeroCount n) 0x00 ++ be64 bits)

/-- `SHA1(m)` (R128): the trailer holds the message length in bits. -/
def sha1 (m : List Byte) : Vector Byte 20 :=
  ser (hashBlocks (m ++ padding m.length (BitVec.ofNat 64 (8 * m.length))))

/-- The digest the engine gives for a message of any length: the trailer holds 8 times the byte counter, which has wrapped
modulo 2^32 (R248). -/
def counterDigest (m : List Byte) : Vector Byte 20 :=
  ser (hashBlocks (m ++ padding m.length (bitLength (BitVec.ofNat 32 m.length))))

/-- `KB`, the key block (R191). -/
def keyBlock (key : List Byte) : Vector Byte 64 :=
  if key.length > 64 then zeroPad (sha1 key).toList else zeroPad key

/-- `HMAC(k, m)` (R197). -/
def hmac (key m : List Byte) : Vector Byte 20 :=
  sha1 ((xorBlock opadByte (keyBlock key)).toList
    ++ (sha1 ((xorBlock ipadByte (keyBlock key)).toList ++ m)).toList)

end Sys2Proof.Machine
end

