-- ==== Sys2Proof/Safety.lean ====
section
/-!
DEFINITION. What claims speak of: a run of commands, a run without contract violation (spec/10_state.md R29), the
invariants of the life cycle (R27, R35; 42_padding_digest.md R174), the message a state has absorbed (R22, R24), and when
two states mean the same to every later command (R36; 93_implementation_defined.md U3).
-/
namespace Sys2Proof

/-- The commands that feed message bytes. -/
def Instr.isWrite : Instr → Bool
  | .init => false
  | .write _ => true
  | .writen _ => true
  | .result => false
  | .initHmac _ => false
  | .resultHmac => false

/-- The message bytes a command carries. -/
def Instr.payload : Instr → List Byte
  | .init => []
  | .write d => [d]
  | .writen p => p
  | .result => []
  | .initHmac _ => []
  | .resultHmac => []

end Sys2Proof

namespace Sys2Proof.Machine

/-- Commands executed one after another (20_memory.md R71). -/
def execAll (commands : List Instr) (s : State) : Host.Outcome State Fault Refusal :=
  match commands with
  | [] => .next s
  | i :: rest =>
    match exec i s with
    | .next t => execAll rest t
    | .fault r => .fault r
    | .refused r => .refused r

/-- "no contract violation occurred" (R29). -/
abbrev State.Clean (s : State) : Prop := s.misuse = false

/-- `t` has the key buffer, the inner-hash buffer, the flags and the two streams of `s`: only `H` and its mark, `B`, `off`,
`cnt` and the model's draw counter may differ. -/
structure State.SameControl (s t : State) : Prop where
  k : t.k = s.k
  ih : t.ih = s.ih
  phase : t.phase = s.phase
  mode : t.mode = s.mode
  misuse : t.misuse = s.misuse
  rsp : t.rsp = s.rsp
  cmd : t.cmd = s.cmd

/-- The life-cycle invariant: UNINIT is reached by reset only, and reset makes the mode PLAIN and `H` `any` (R28, R42); in
ACCUM no command reads an `H` that is `any` (60_exceptions.md R218), and the offset follows the counter (R35); in FINAL `H`
is `any` only after a misuse (R213), and after a legal result the buffer is empty (R174). -/
structure State.LifeCycle (s : State) : Prop where
  uninit_plain : s.phase = .uninit → s.mode = .plain
  uninit_any : s.phase = .uninit → s.hAny = true
  accum_known : s.phase = .accum → s.hAny = false
  final_any : s.phase = .final → s.hAny = true → s.misuse = true
  accum_offset : s.phase = .accum → s.off.val = s.cnt.toNat % 64
  final_offset : s.phase = .final → s.hAny = false → s.off.val = 0

/-- The data path stands where the bytes `bytes`, appended from `IV` on, bring it: the full blocks are compressed into
`H`, and the rest lies in the first `off` bytes of `B` (R22, R170). -/
structure State.Buffered (s : State) (bytes : List Byte) : Prop where
  offset : s.off.val = bytes.length % 64
  chain : s.h = hashBlocks bytes
  buffer : ∀ i : Fin 64, i.val < s.off.val → s.b[i] = bytes.getD (64 * (bytes.length / 64) + i.val) 0

/-- The message `m` has been absorbed since the last init: buffered, and counted modulo 2^32 (R24). -/
structure State.Absorbed (s : State) (m : List Byte) : Prop where
  buffered : s.Buffered m
  counted : s.cnt = BitVec.ofNat 32 m.length

/-- In ACCUM the engine is in the middle of hashing some message, which in mode HMAC begins with the 64 bytes of `K`
(R190). -/
def State.Coherent (s : State) : Prop :=
  s.phase = .accum →
    match s.mode with
    | .plain => ∃ m, s.Absorbed m
    | .hmac => ∃ m, s.Absorbed (s.k.toList ++ m)

/-- Two states agree on everything a later command's answer can depend on: the flags, and in ACCUM `H`, `off`, `cnt`, the
first `off` bytes of `B`, and in mode HMAC `K`. Stale buffer bytes, `IH`, old keys and draw numbers may differ. -/
structure State.SameMeaning (s t : State) : Prop where
  phase : s.phase = t.phase
  mode : s.mode = t.mode
  chain : s.phase = .accum → s.h = t.h
  offset : s.phase = .accum → s.off = t.off
  count : s.phase = .accum → s.cnt = t.cnt
  buffer : s.phase = .accum → ∀ i : Fin 64, i.val < s.off.val → s.b[i] = t.b[i]
  key : s.phase = .accum → s.mode = .hmac → s.k = t.k

end Sys2Proof.Machine
end

