-- ==== Sys2Proof/Certificates/Slice0/Obligations.lean ====
section
/-!
DEFINITION. The statements for the provers. Each docstring names the rules of spec/ the statement comes from. The model's
draw counter `draws` and its mark `hAny` (`H` is `any`) are no part of the engine (notes/assumptions/2.md): no statement says
what a command does to the counter, except where draws or two runs are compared; a statement about a free value holds for
every value.
-/
open Sys2Proof Sys2Proof.Machine

/-! ### Encoding (30_encoding.md) -/

/-- R91 to R93, R96: every command that has an encoding is decoded from it with every operand intact, and the decoder
leaves exactly the bytes after the frame. -/
def Obligations.DecodeOfEncode : Prop :=
  ∀ (i : Instr) (rest : List Byte), i.wellFormed = true → decode (encode i ++ rest) = .command i rest

/-- R91 to R96: whatever the decoder accepts is the encoding of the command it answers, followed by the rest. -/
def Obligations.EncodeOfDecode : Prop :=
  ∀ (bytes : List Byte) (i : Instr) (rest : List Byte),
    decode bytes = .command i rest → i.wellFormed = true ∧ encode i ++ rest = bytes

/-- R91 to R93: frames written out byte by byte from the formats are read as the commands they stand for. -/
def Obligations.WrittenOutFramesDecode : Prop :=
  decode [0x00] = .command .init [] ∧
  decode [0x01, 0x80] = .command (.write 0x80) [] ∧
  decode [0x02, 0x00, 0x02, 0x03, 0x05, 0x03] = .command (.writen [0x03, 0x05]) [0x03] ∧
  decode [0x03] = .command .result [] ∧
  decode [0x04, 0x00, 0x03, 0x6b, 0x65, 0x79] = .command (.initHmac [0x6b, 0x65, 0x79]) [] ∧
  decode [0x05] = .command .resultHmac []

/-- R94, R210: a step is refused exactly when a reserved opcode stands at the command boundary, whatever the state, and
then by that opcode; no step answers a fault. -/
def Obligations.OnlyReservedOpcodesAreRefused : Prop :=
  ∀ s : State,
    (∀ op rest, s.cmd = op :: rest → 6 ≤ op.toNat → step s = .refused (.reservedOpcode op)) ∧
    (∀ r, step s = .refused r → ∃ op rest, s.cmd = op :: rest ∧ 6 ≤ op.toNat ∧ r = .reservedOpcode op) ∧
    (∀ r, step s ≠ .fault r)

/-- R95: while only the first `n` bytes of a frame have been sent, the step changes nothing; when the host sends the
missing bytes, the step executes the whole command. That the hold is a step to the same state, and that an empty CMD holds
so too, is the model's reading, log entry 4 (93_implementation_defined.md U9: "no effect, no step"). -/
def Obligations.TruncatedFrameHoldsUntilCompleted : Prop :=
  ∀ (s : State) (i : Instr) (n : Nat), i.wellFormed = true → n < (encode i).length → s.cmd = (encode i).take n →
    step s = .next s ∧ step (s.hostSend ((encode i).drop n)) = exec i (s.consumed [])

/-- R90, R96: when the bytes at the front of CMD decode to a command, the step is that command executed on the state whose
CMD has lost exactly the frame. -/
def Obligations.StepRunsTheDecodedCommand : Prop :=
  ∀ (s : State) (i : Instr) (rest : List Byte), decode s.cmd = .command i rest → step s = exec i (s.consumed rest)

/-- R96: a step consumes exactly its command's frame: nothing moves the stream position back or makes it skip. -/
def Obligations.StepConsumesExactlyOneFrame : Prop :=
  ∀ (s : State) (i : Instr) (rest : List Byte), i.wellFormed = true → s.cmd = encode i ++ rest →
    ∃ t, step s = .next t ∧ t.cmd = rest

/-! ### The plain commands (40_plain_commands.md) -/

/-- R120, R121: INIT completes from every state; `H` becomes the five constants, `off` and `cnt` become 0, the flags are
ACCUM and PLAIN, and everything else is unchanged. That the bytes of `B`, which read as `any` from here on (R22), stay in the
field is the model's choice, log entry 17. -/
def Obligations.InitLoadsTheConstants : Prop :=
  ∀ s : State, ∃ t, exec .init s = .next t ∧
    t.h.h0 = 0x67452301 ∧ t.h.h1 = 0xEFCDAB89 ∧ t.h.h2 = 0x98BADCFE ∧ t.h.h3 = 0x10325476 ∧ t.h.h4 = 0xC3D2E1F0 ∧
    t.off = 0 ∧ t.cnt = 0 ∧ t.phase = .accum ∧ t.mode = .plain ∧
    t.hAny = false ∧
    t.b = s.b ∧ t.k = s.k ∧ t.ih = s.ih ∧ t.misuse = s.misuse ∧ t.rsp = s.rsp ∧ t.cmd = s.cmd

/-- R120 corner case (a): INIT directly after INIT leaves the same state. -/
def Obligations.InitIsIdempotent : Prop :=
  ∀ s t : State, exec .init s = .next t → exec .init t = .next t

/-- R122, R123, R170, R62: WRITE in ACCUM, in either mode. The byte goes to `B[off]`; `off` and `cnt` advance, `cnt` modulo
2^32; at the 64th byte the block is compressed into `H` and `off` returns to 0; the count 1 is answered; nothing else
changes. -/
def Obligations.WriteAppendsOneByte : Prop :=
  ∀ (s : State) (d : Byte), s.phase = .accum → ∃ t, exec (.write d) s = .next t ∧
    t.rsp = s.rsp ++ [0x00, 0x01] ∧ t.cnt = s.cnt + 1 ∧ t.off.val = (s.off.val + 1) % 64 ∧
    (s.off.val < 63 → t.h = s.h ∧ t.hAny = s.hAny ∧ ∀ i : Fin 64, t.b[i] = if i = s.off then d else s.b[i]) ∧
    (s.off.val = 63 → t.h = compressFn s.h (s.b.set 63 d) ∧ t.hAny = false) ∧
    t.k = s.k ∧ t.ih = s.ih ∧ t.phase = s.phase ∧ t.mode = s.mode ∧ t.misuse = s.misuse ∧ t.cmd = s.cmd

/-- R124: WRITEN of a non-empty payload in ACCUM, in either mode. `cnt` advances by the length modulo 2^32 and `off` modulo
64; while no block fills, the payload lies in `B` from `off` on, in order, and every other byte of `B` and `H` are
unchanged; the length is answered; nothing else changes. -/
def Obligations.WritenAppendsThePayload : Prop :=
  ∀ (s : State) (p : List Byte), s.phase = .accum → p ≠ [] → ∃ t, exec (.writen p) s = .next t ∧
    t.rsp = s.rsp ++ [BitVec.ofNat 8 (p.length / 256), BitVec.ofNat 8 p.length] ∧
    t.cnt = s.cnt + BitVec.ofNat 32 p.length ∧ t.off.val = (s.off.val + p.length) % 64 ∧
    (s.off.val + p.length < 64 → t.h = s.h ∧ t.hAny = s.hAny ∧ ∀ i : Fin 64,
      t.b[i] = if s.off.val ≤ i.val ∧ i.val < s.off.val + p.length then p.getD (i.val - s.off.val) 0 else s.b[i]) ∧
    t.k = s.k ∧ t.ih = s.ih ∧ t.phase = s.phase ∧ t.mode = s.mode ∧ t.misuse = s.misuse ∧ t.cmd = s.cmd

/-- R124 corner case (a), R212: WRITEN of an empty payload answers the count 0 and changes nothing, in every phase. -/
def Obligations.WritenOfNothingOnlyAnswers : Prop :=
  ∀ s : State, exec (.writen []) s = .next { s with rsp := s.rsp ++ [0x00, 0x00] }

/-- R125: in ACCUM, any mix of WRITE and WRITEN that presents the same bytes in order leaves exactly what one WRITEN of all
of them leaves; only RSP differs, by one count per command. -/
def Obligations.IncrementalWritesAreEquivalent : Prop :=
  ∀ (s : State) (ws : List Instr), s.phase = .accum → (∀ w ∈ ws, w.isWrite = true) →
    ∃ t u, execAll ws s = .next t ∧ exec (.writen (ws.flatMap Instr.payload)) s = .next u ∧
      t.h = u.h ∧ t.hAny = u.hAny ∧ t.off = u.off ∧ t.cnt = u.cnt ∧ (∀ i : Fin 64, i.val < t.off.val → t.b[i] = u.b[i]) ∧
      t.k = u.k ∧ t.ih = u.ih ∧ t.phase = u.phase ∧ t.mode = u.mode ∧ t.misuse = u.misuse ∧ t.cmd = u.cmd ∧
      t.rsp = s.rsp ++ ws.flatMap (fun w =>
        [BitVec.ofNat 8 (w.payload.length / 256), BitVec.ofNat 8 w.payload.length]) ∧
      u.rsp = s.rsp ++ [BitVec.ofNat 8 ((ws.flatMap Instr.payload).length / 256),
        BitVec.ofNat 8 (ws.flatMap Instr.payload).length]

/-- R123, R124, R24: in ACCUM a write command extends the absorbed message by its payload, whatever the payload's length
and however many blocks it fills. -/
def Obligations.WritesExtendTheAbsorbedMessage : Prop :=
  ∀ (s : State) (m : List Byte) (w : Instr), s.phase = .accum → w.isWrite = true → s.Absorbed m →
    ∃ t, exec w s = .next t ∧ t.Absorbed (m ++ w.payload)

/-- R126, R172 to R174, R176: RESULT in ACCUM, in either mode. With `off` up to 55 the padding fills one block, with 56 to
63 two; `H` becomes their compression, `off` becomes 0, `cnt` is kept, the 20 bytes answered are `SER(H)`, the phase is
FINAL; the key buffers, the mode and the misuse bit are unchanged. -/
def Obligations.ResultPadsAndAnswers : Prop :=
  ∀ s : State, s.phase = .accum → ∃ t, exec .result s = .next t ∧
    (s.off.val ≤ 55 → t.h = compressFn s.h
      (zeroPad (s.b.toList.take s.off.val ++ 0x80 :: List.replicate (55 - s.off.val) 0x00 ++ trailer s.cnt))) ∧
    (56 ≤ s.off.val → t.h = compressFn
      (compressFn s.h (zeroPad (s.b.toList.take s.off.val ++ 0x80 :: List.replicate (63 - s.off.val) 0x00)))
      (zeroPad (List.replicate 56 0x00 ++ trailer s.cnt))) ∧
    t.hAny = false ∧ t.off = 0 ∧ t.cnt = s.cnt ∧ t.phase = .final ∧ t.rsp = s.rsp ++ (ser t.h).toList ∧
    t.k = s.k ∧ t.ih = s.ih ∧ t.mode = s.mode ∧ t.misuse = s.misuse ∧ t.cmd = s.cmd

/-- R128, R248: from every state, INIT, then any mix of WRITE and WRITEN, then RESULT answers the counts and then the
SHA-1 digest of the message the payloads make; a message of 2^32 bytes or more gets the digest whose trailer holds the
wrapped counter. -/
def Obligations.PlainCommandsComputeSha1 : Prop :=
  ∀ (s : State) (ws : List Instr), (∀ w ∈ ws, w.isWrite = true) →
    ∃ t, execAll (.init :: (ws ++ [.result])) s = .next t ∧
      t.rsp = s.rsp ++ ws.flatMap (fun w =>
          [BitVec.ofNat 8 (w.payload.length / 256), BitVec.ofNat 8 w.payload.length])
        ++ (counterDigest (ws.flatMap Instr.payload)).toList ∧
      ((ws.flatMap Instr.payload).length < 2 ^ 32 →
        counterDigest (ws.flatMap Instr.payload) = sha1 (ws.flatMap Instr.payload)) ∧
      t.phase = .final ∧ t.mode = .plain ∧ t.misuse = s.misuse ∧ t.off = 0 ∧
      t.cnt = BitVec.ofNat 32 (ws.flatMap Instr.payload).length ∧ t.k = s.k ∧ t.ih = s.ih ∧ t.cmd = s.cmd

/-- R120 (d), R218: from every state, damaged by a misuse or not, INIT and RESULT answer the empty message's digest
`da39a3ee5e6b4b0d3255bfef95601890afd80709`. -/
def Obligations.InitRecoversFromAnyState : Prop :=
  ∀ s : State, ∃ t, execAll [.init, .result] s = .next t ∧
    t.rsp = s.rsp ++ [0xda, 0x39, 0xa3, 0xee, 0x5e, 0x6b, 0x4b, 0x0d, 0x32, 0x55,
      0xbf, 0xef, 0x95, 0x60, 0x18, 0x90, 0xaf, 0xd8, 0x07, 0x09] ∧
    t.misuse = s.misuse

/-- R99: WRITEB, and WRITEL of a message longer than 65535 bytes, expand into write commands that all have an encoding and
that present exactly the bytes of the message, in order. R99 gives WRITEL no expansion for a message, or a last rest, of at
most 65535 bytes: that it is one WRITEN there is the model's choice, log entry 18, and the WRITEL clause rests on it for every
message. -/
def Obligations.PseudoWritesPresentTheMessage : Prop :=
  ∀ m : List Byte,
    ((pseudoWriteb m).flatMap Instr.payload = m ∧ ∀ w ∈ pseudoWriteb m, w.isWrite = true ∧ w.wellFormed = true) ∧
    ((pseudoWritel m).flatMap Instr.payload = m ∧ ∀ w ∈ pseudoWritel m, w.isWrite = true ∧ w.wellFormed = true)

/-! ### The block engine (41_compression.md, 42_padding_digest.md, 00_scope.md) -/

/-- R144 to R156: `COMPRESS_FN` is the eighty rounds of the rules: the schedule words, the working variables before and
after each round, the four stages with their functions and constants, and the feed-forward. The stage formulas (R148) and the
loading of the working variables (R150) are the spec's "[from general knowledge, not in source]", log entry 15. -/
def Obligations.CompressionFollowsTheEightyRounds : Prop :=
  ∀ (c : Chain) (block : Vector Byte 64), ∃ (W av bv cv dv ev : Nat → Word),
    (∀ t : Fin 16, W t.val =
      be32 block[4 * t.val] block[4 * t.val + 1] block[4 * t.val + 2] block[4 * t.val + 3]) ∧
    (∀ t, 16 ≤ t → t < 80 → W t = rol32 (W (t - 3) ^^^ W (t - 8) ^^^ W (t - 14) ^^^ W (t - 16)) 1) ∧
    av 0 = c.h0 ∧ bv 0 = c.h1 ∧ cv 0 = c.h2 ∧ dv 0 = c.h3 ∧ ev 0 = c.h4 ∧
    (∀ t, t < 80 →
      av (t + 1) = rol32 (av t) 5 +
          (if t < 20 then (bv t &&& cv t) ||| (~~~(bv t) &&& dv t)
            else if t < 40 then bv t ^^^ cv t ^^^ dv t
            else if t < 60 then (bv t &&& cv t) ||| (bv t &&& dv t) ||| (cv t &&& dv t)
            else bv t ^^^ cv t ^^^ dv t) +
          ev t +
          (if t < 20 then 0x5A827999 else if t < 40 then 0x6ED9EBA1 else if t < 60 then 0x8F1BBCDC else 0xCA62C1D6) +
          W t ∧
      bv (t + 1) = av t ∧ cv (t + 1) = rol32 (bv t) 30 ∧ dv (t + 1) = cv t ∧ ev (t + 1) = dv t) ∧
    compressFn c block = ⟨c.h0 + av 80, c.h1 + bv 80, c.h2 + cv 80, c.h3 + dv 80, c.h4 + ev 80⟩

/-- R9: rotation moves bit `j` to bit `(j + n) mod 32`, for every amount; by 0, and by every multiple of 32, it is the
identity. -/
def Obligations.RotationMovesEveryBit : Prop :=
  ∀ (x : Word) (n : Nat),
    (∀ j, j < 32 → (rol32 x n).getLsbD ((j + n) % 32) = x.getLsbD j) ∧ rol32 x (32 * n) = x

/-- R10: `be32` and `byte_k` are inverse, first byte most significant. -/
def Obligations.WordsAndBytesConvertBothWays : Prop :=
  (∀ x : Word, be32 (byteOf 0 x) (byteOf 1 x) (byteOf 2 x) (byteOf 3 x) = x) ∧
  (∀ b0 b1 b2 b3 : Byte, byteOf 0 (be32 b0 b1 b2 b3) = b0 ∧ byteOf 1 (be32 b0 b1 b2 b3) = b1 ∧
    byteOf 2 (be32 b0 b1 b2 b3) = b2 ∧ byteOf 3 (be32 b0 b1 b2 b3) = b3)

/-- R175: byte `4i + k` of `SER(H)` is the 8 bits of `H[i]` from bit `24 - 8k` up. -/
def Obligations.DigestBytesAreBigEndianWords : Prop :=
  ∀ (c : Chain) (k : Fin 4),
    (ser c)[0 + k.val] = c.h0.extractLsb' (24 - 8 * k.val) 8 ∧
    (ser c)[4 + k.val] = c.h1.extractLsb' (24 - 8 * k.val) 8 ∧
    (ser c)[8 + k.val] = c.h2.extractLsb' (24 - 8 * k.val) 8 ∧
    (ser c)[12 + k.val] = c.h3.extractLsb' (24 - 8 * k.val) 8 ∧
    (ser c)[16 + k.val] = c.h4.extractLsb' (24 - 8 * k.val) 8

/-- R171: the eight trailer bytes in terms of `cnt`, and the number they spell, `8 * cnt` without truncation. -/
def Obligations.TrailerSpellsTheBitLength : Prop :=
  ∀ cnt : Word,
    trailer cnt = [0x00#8, 0x00, 0x00, (cnt >>> 29).setWidth 8, (cnt >>> 21).setWidth 8, (cnt >>> 13).setWidth 8,
      (cnt >>> 5).setWidth 8, (cnt <<< 3).setWidth 8] ∧
    (trailer cnt).foldl (fun n b => 256 * n + b.toNat) 0 = 8 * cnt.toNat

/-! ### The HMAC commands (43_hmac_commands.md) -/

/-- R190, R191: INIT_HMAC completes from every state. `K` is the key block XOR 0x36 in every byte, a key of at most 64
bytes being used as it is and a longer one as its SHA-1 digest, padded with zeros; `H` is the compression of that block;
`off` is 0, `cnt` 64, the flags ACCUM and HMAC; `IH`, the misuse bit and the streams are unchanged. -/
def Obligations.InitHmacStartsTheInnerHash : Prop :=
  ∀ (s : State) (key : List Byte), key.length < 65536 → ∃ t, exec (.initHmac key) s = .next t ∧
    (∀ i : Fin 64, t.k[i] =
      (if 64 < key.length then (sha1 key).toList.getD i.val 0 else key.getD i.val 0) ^^^ 0x36) ∧
    t.h = compressFn iv t.k ∧ t.hAny = false ∧ t.off = 0 ∧ t.cnt = 64 ∧ t.phase = .accum ∧ t.mode = .hmac ∧
    t.ih = s.ih ∧ t.misuse = s.misuse ∧ t.rsp = s.rsp ∧ t.cmd = s.cmd

/-- R190 corner case (d): the engine keeps no record of whether the key was hashed: a long key and its 20-byte digest used
as a key leave the same `K`, `H`, `off`, `cnt`, flags and streams. -/
def Obligations.LongKeyEqualsItsDigestAsKey : Prop :=
  ∀ (s : State) (key : List Byte), 64 < key.length → key.length < 65536 →
    ∃ t u, exec (.initHmac key) s = .next t ∧ exec (.initHmac (sha1 key).toList) s = .next u ∧
      t.k = u.k ∧ t.h = u.h ∧ t.off = u.off ∧ t.cnt = u.cnt ∧ t.phase = u.phase ∧ t.mode = u.mode ∧
      t.ih = u.ih ∧ t.misuse = u.misuse ∧ t.rsp = u.rsp ∧ t.cmd = u.cmd

/-- R194, R195: RESULT_HMAC in ACCUM and HMAC, for every such state. `IH` is the digest RESULT would have answered there;
every byte of `K` is XORed with 0x6A; the answer is the SHA-1 digest of the new `K` followed by `IH`, and `H` its words;
`off` is 0, `cnt` 84, the phase FINAL; the mode, the misuse bit and CMD are unchanged. -/
def Obligations.ResultHmacRunsTheOuterHash : Prop :=
  ∀ s : State, s.phase = .accum → s.mode = .hmac → ∃ t, exec .resultHmac s = .next t ∧
    (∀ u, exec .result s = .next u → u.rsp = s.rsp ++ t.ih.toList) ∧
    (∀ i : Fin 64, t.k[i] = s.k[i] ^^^ 0x6A) ∧
    ser t.h = sha1 (t.k.toList ++ t.ih.toList) ∧ t.rsp = s.rsp ++ (ser t.h).toList ∧
    t.hAny = false ∧ t.off = 0 ∧ t.cnt = 84 ∧ t.phase = .final ∧ t.mode = .hmac ∧ t.misuse = s.misuse ∧ t.cmd = s.cmd

/-- R197: from every state, INIT_HMAC, then any mix of WRITE and WRITEN, then RESULT_HMAC answers the counts and then
HMAC(key, message), for every key the command can carry and every message of fewer than 2^32 - 64 bytes. -/
def Obligations.HmacCommandsComputeHmac : Prop :=
  ∀ (s : State) (key : List Byte) (ws : List Instr), key.length < 65536 → (∀ w ∈ ws, w.isWrite = true) →
    (ws.flatMap Instr.payload).length < 2 ^ 32 - 64 →
    ∃ t, execAll (.initHmac key :: (ws ++ [.resultHmac])) s = .next t ∧
      t.rsp = s.rsp ++ ws.flatMap (fun w =>
          [BitVec.ofNat 8 (w.payload.length / 256), BitVec.ofNat 8 w.payload.length])
        ++ (hmac key (ws.flatMap Instr.payload)).toList ∧
      t.k = xorBlock 0x5C (keyBlock key) ∧
      t.ih = sha1 ((xorBlock 0x36 (keyBlock key)).toList ++ ws.flatMap Instr.payload) ∧
      t.cnt = 84 ∧ t.off = 0 ∧ t.phase = .final ∧ t.mode = .hmac ∧ t.misuse = s.misuse ∧ t.cmd = s.cmd

/-- R198: RESULT in mode HMAC is legal: it answers the digest of the 64 bytes of `K` and the message, leaves `K` as it is,
and makes a RESULT_HMAC after it a misuse. -/
def Obligations.ResultInHmacModeAnswersTheInnerDigest : Prop :=
  ∀ (s : State) (m : List Byte), s.phase = .accum → s.mode = .hmac → s.Absorbed (s.k.toList ++ m) →
    m.length < 2 ^ 32 - 64 →
    ∃ t u, exec .result s = .next t ∧ t.rsp = s.rsp ++ (sha1 (s.k.toList ++ m)).toList ∧ t.k = s.k ∧
      t.misuse = s.misuse ∧ exec .resultHmac t = .next u ∧ u.misuse = true ∧ u.phase = .final

/-! ### Misuse and the life cycle (60_exceptions.md, 10_state.md) -/

/-- R212, R29: every command completes in every state, and the misuse bit afterwards is set exactly where it was set
before or the table calls the command a misuse; no command clears it. -/
def Obligations.MisuseBitFollowsTheTable : Prop :=
  ∀ (i : Instr) (s : State), ∃ t, exec i s = .next t ∧
    (t.misuse = true ↔ s.misuse = true ∨
      match i with
      | .init => False
      | .initHmac _ => False
      | .write _ => s.phase = .uninit ∨ s.phase = .final
      | .writen p => 1 ≤ p.length ∧ (s.phase = .uninit ∨ s.phase = .final)
      | .result => s.phase = .uninit ∨ s.phase = .final
      | .resultHmac => s.phase = .uninit ∨ s.phase = .final ∨ (s.phase = .accum ∧ s.mode = .plain))

/-- R214: the next phase and mode of every command from every phase and mode, legal or misused; and reset. -/
def Obligations.NextPhaseAndModeTable : Prop :=
  (∀ (i : Instr) (s : State), ∃ t, exec i s = .next t ∧
    match i with
    | .init => t.phase = .accum ∧ t.mode = .plain
    | .initHmac _ => t.phase = .accum ∧ t.mode = .hmac
    | .write _ => t.phase = s.phase ∧ t.mode = s.mode
    | .writen _ => t.phase = s.phase ∧ t.mode = s.mode
    | .result => t.phase = (if s.phase = .uninit then .uninit else .final) ∧ t.mode = s.mode
    | .resultHmac => t.phase = (if s.phase = .uninit then .uninit else .final) ∧ t.mode = s.mode) ∧
  State.reset.phase = .uninit ∧ State.reset.mode = .plain ∧
  ∀ s : State, s.applyReset.phase = .uninit ∧ s.applyReset.mode = .plain

/-- R97, R211: the response bytes of every command in every state: none, the count as two bytes big-endian (misused or
not), or twenty bytes, which are `SER(H)` after the command when it is legal. -/
def Obligations.ResponsesOfEveryCommand : Prop :=
  ∀ (i : Instr) (s : State), ∃ t bytes, exec i s = .next t ∧ t.rsp = s.rsp ++ bytes ∧
    match i with
    | .init => bytes = []
    | .initHmac _ => bytes = []
    | .write _ => bytes = [0x00, 0x01]
    | .writen p => bytes = [BitVec.ofNat 8 (p.length / 256), BitVec.ofNat 8 p.length]
    | .result => bytes.length = 20 ∧ (s.phase = .accum → bytes = (ser t.h).toList)
    | .resultHmac => bytes.length = 20 ∧ (s.phase = .accum → s.mode = .hmac → bytes = (ser t.h).toList)

/-- R213, R199, R217: a misused command completes: the misuse bit is set, `H` is `any`, the mode and CMD are unchanged, and the phase is
unchanged too, except that RESULT_HMAC in ACCUM moves to FINAL. -/
def Obligations.MisusedCommandsComplete : Prop :=
  ∀ (i : Instr) (s : State), isMisuse i s.phase s.mode = true → ∃ t, exec i s = .next t ∧
    t.misuse = true ∧ t.hAny = true ∧ t.mode = s.mode ∧ t.cmd = s.cmd ∧
    t.phase = (if i = .resultHmac ∧ s.phase = .accum then .final else s.phase)

/-- R213: a misuse draws every data element afresh, so what a misused command leaves and answers does not depend on any
data held before. That two states that differ in `H`, `B`, `off`, `cnt`, `K` and `IH` only are taken to the same state, with
the same drawn data and the same 20 `any` bytes, is no rule of the spec, which draws them independently, but the model's
choice, log entry 2: draws are numbered by the counter, which the two states have equal. -/
def Obligations.MisuseForgetsAllData : Prop :=
  ∀ (i : Instr) (s t : State), isMisuse i s.phase s.mode = true →
    s.phase = t.phase → s.mode = t.mode → s.misuse = t.misuse → s.rsp = t.rsp → s.cmd = t.cmd → s.draws = t.draws →
    exec i s = exec i t

/-- R25, R26, R121: a legal command other than INIT_HMAC and RESULT_HMAC leaves `K` as it was, and a legal command other
than RESULT_HMAC leaves `IH` as it was. -/
def Obligations.KeyAndInnerBuffersHaveFewWriters : Prop :=
  ∀ (i : Instr) (s : State), isMisuse i s.phase s.mode = false → ∃ t, exec i s = .next t ∧
    (i ≠ .resultHmac → (∀ key, i ≠ .initHmac key) → t.k = s.k) ∧ (i ≠ .resultHmac → t.ih = s.ih)

/-- R29, R240: no step clears the misuse bit and no step reaches UNINIT from another phase: reset alone does. -/
def Obligations.OnlyResetClearsMisuseOrReachesUninit : Prop :=
  ∀ s t : State, step s = .next t →
    (s.misuse = true → t.misuse = true) ∧ (t.phase = .uninit → s.phase = .uninit)

/-- R35, R27, R28, R174: every step keeps the life-cycle invariant: in ACCUM the offset is the counter modulo 64 (the
spec's premise that no misuse has run since the last InitOps always holds in ACCUM) and `H` is not `any` (R218), UNINIT has
mode PLAIN and an `H` that is `any`, in FINAL `H` is `any` only after a misuse, and after a legal result the buffer is
empty. -/
def Obligations.EveryStepKeepsTheLifeCycle : Prop :=
  ∀ s t : State, s.LifeCycle → step s = .next t → t.LifeCycle

/-- R22 to R24, R128, R190: every step keeps the data path coherent: in ACCUM there is always a message whose hashing the
state is in the middle of, and in mode HMAC it begins with the 64 bytes of `K`. -/
def Obligations.EveryStepKeepsTheDataCoherent : Prop :=
  ∀ s t : State, s.Coherent → step s = .next t → t.Coherent

/-- R42: both invariants hold right after reset. -/
def Obligations.InvariantsHoldAtReset : Prop := State.reset.LifeCycle ∧ State.reset.Coherent

/-- R19, R31 to R33, R240: what the host does between steps keeps both invariants too: sending, taking, reading `DIGEST`,
applying reset. -/
def Obligations.HostActionsKeepTheInvariants : Prop :=
  ∀ (s : State) (bytes : List Byte) (n : Nat), s.LifeCycle → s.Coherent →
    ((s.hostSend bytes).LifeCycle ∧ (s.hostSend bytes).Coherent) ∧
    ((s.hostTake n).2.LifeCycle ∧ (s.hostTake n).2.Coherent) ∧
    (s.applyReset.LifeCycle ∧ s.applyReset.Coherent) ∧
    ∀ dg t, s.readDigest = some (dg, t) → t.LifeCycle ∧ t.Coherent

/-- R36, R22, U3: no legal answer depends on a byte the spec leaves open. Two states that agree on the flags and, in ACCUM,
on `H`, `off`, `cnt`, the first `off` bytes of `B` and (mode HMAC) `K`, are taken by every command to two states that agree
so again, and a legal command answers the same bytes in both; stale buffer bytes, old keys and draws may differ. -/
def Obligations.NoLegalAnswerDependsOnStaleData : Prop :=
  ∀ (i : Instr) (s t : State), s.SameMeaning t →
    ∃ s' t', exec i s = .next s' ∧ exec i t = .next t' ∧ s'.SameMeaning t' ∧
      (isMisuse i s.phase s.mode = false → ∃ bytes, s'.rsp = s.rsp ++ bytes ∧ t'.rsp = t.rsp ++ bytes)

/-! ### Views, streams and reset (10_state.md, 70_reset_and_hazards.md) -/

/-- R30: the number the host reads as `STATUS`: phase in bits 1..0, mode in bit 2, misuse in bit 3, the rest 0; that reading is
offered when every byte sent has been consumed is the model's reading, log entry 5. -/
def Obligations.StatusShowsTheFlags : Prop :=
  ∀ s : State, s.cmd = [] → ∃ v, s.readStatus = some v ∧
    v.toNat = (match s.phase with | .uninit => 0 | .accum => 1 | .final => 2)
      + (match s.mode with | .plain => 0 | .hmac => 4) + (if s.misuse = true then 8 else 0)

/-- R31, R126: after a legal RESULT or RESULT_HMAC the `DIGEST` view is the 20 bytes just answered, reading it changes
nothing, and a WRITEN of no bytes after it leaves it so. That reading is offered when CMD is empty is the model's reading, log
entry 5. -/
def Obligations.DigestViewIsTheAnswer : Prop :=
  ∀ (i : Instr) (s : State), (i = .result ∨ i = .resultHmac) → isMisuse i s.phase s.mode = false → s.cmd = [] →
    ∃ t dg u, exec i s = .next t ∧ t.readDigest = some (dg, t) ∧ t.rsp = s.rsp ++ dg.toList ∧
      exec (.writen []) t = .next u ∧ u.readDigest = some (dg, u)

/-- R31, R68: a read of `DIGEST` is answered in every phase, and changes nothing but the model's draw counter. That
it is answered when CMD is empty is the model's reading, log entry 5. -/
def Obligations.DigestReadHasNoSideEffect : Prop :=
  ∀ s : State, s.cmd = [] →
    ∃ dg t, s.readDigest = some (dg, t) ∧ t = { s with draws := t.draws }

/-- R32, R33: the host takes response bytes from the front, in order, and sends command bytes to the back; nothing else
moves. -/
def Obligations.StreamsAreFirstInFirstOut : Prop :=
  ∀ (s : State) (n : Nat) (bytes : List Byte),
    (s.hostTake n).1 ++ (s.hostTake n).2.rsp = s.rsp ∧
    ((s.hostTake n).1.length = min n s.rsp.length) ∧
    (s.hostTake n).2 = { s with rsp := (s.hostTake n).2.rsp } ∧
    s.hostSend bytes = { s with cmd := s.cmd ++ bytes }

/-- R42, R240: after reset, at power-on or applied by the host in any state, the flags are UNINIT, PLAIN and 0, RSP is
empty, nothing of a partly sent frame is left, `STATUS` reads 0x00, and the engine waits. That CMD loses every
unexecuted byte, and that an empty CMD holds, are the model's readings, log entries 8 and 4. -/
def Obligations.ResetSetsTheFlags : Prop :=
  ∀ s t : State, (t = State.reset ∨ t = s.applyReset) →
    t.phase = .uninit ∧ t.mode = .plain ∧ t.misuse = false ∧ t.rsp = [] ∧ t.cmd = [] ∧
    t.readStatus = some 0x00 ∧ step t = .next t

/-- R42, R212, 91 N5: no command after reset can tell what the data elements hold: from UNINIT, two states that differ in
`H`, `B`, `off`, `cnt`, `K` and `IH` only are taken by every command to states with the same flags, streams and responses,
and after INIT or INIT_HMAC the two mean the same to every later command. The reset values of the data elements are the
model's free values, log entry 1. That a misused RESULT or RESULT_HMAC answers the same 20 `any` bytes in both is no rule of
the spec, which draws them independently, but the model's choice, log entry 2: draws are numbered by the counter, which the two
states have equal. -/
def Obligations.ResetDataIsUnobservable : Prop :=
  ∀ (i : Instr) (s t : State), s.phase = .uninit → t.phase = .uninit →
    s.mode = t.mode → s.misuse = t.misuse → s.rsp = t.rsp → s.cmd = t.cmd → s.draws = t.draws →
    ∃ s' t', exec i s = .next s' ∧ exec i t = .next t' ∧ s'.SameMeaning t' ∧
      s'.misuse = t'.misuse ∧ s'.rsp = t'.rsp ∧ s'.cmd = t'.cmd

/-- R213, R31, R11: after a misused command every read of `DIGEST` draws afresh: two reads one after the other answer draws of
different numbers, so nothing relates them. How draws are numbered is the model's choice, log entry 2. -/
def Obligations.DigestAfterMisuseIsDrawnAtEveryRead : Prop :=
  ∀ (i : Instr) (s : State), isMisuse i s.phase s.mode = true → s.cmd = [] →
    ∃ t, exec i s = .next t ∧
      (t.phase = .final → ∃ u v, t.readDigest = some (ser (Chain.free t.draws), u) ∧
        u.readDigest = some (ser (Chain.free (t.draws + 5)), v)) ∧
      (t.phase ≠ .final → ∃ u v, t.readDigest = some (Config.freeBytes 20 t.draws, u) ∧
        u.readDigest = some (Config.freeBytes 20 (t.draws + 20), v))
end

