-- ==== Sys2Proof/Laws/State.lean ====
section
/-!
SUPPORT. One lemma per field of State and per update of it, true by unfolding, so that no proof unfolds a record update.
-/
namespace Sys2Proof.Machine

@[simp] theorem State.emit_hAny (s : State) (bytes : List Byte) : (s.emit bytes).hAny = s.hAny := rfl
@[simp] theorem State.emit_h (s : State) (bytes : List Byte) : (s.emit bytes).h = s.h := rfl
@[simp] theorem State.emit_b (s : State) (bytes : List Byte) : (s.emit bytes).b = s.b := rfl
@[simp] theorem State.emit_off (s : State) (bytes : List Byte) : (s.emit bytes).off = s.off := rfl
@[simp] theorem State.emit_cnt (s : State) (bytes : List Byte) : (s.emit bytes).cnt = s.cnt := rfl
@[simp] theorem State.emit_k (s : State) (bytes : List Byte) : (s.emit bytes).k = s.k := rfl
@[simp] theorem State.emit_ih (s : State) (bytes : List Byte) : (s.emit bytes).ih = s.ih := rfl
@[simp] theorem State.emit_phase (s : State) (bytes : List Byte) : (s.emit bytes).phase = s.phase := rfl
@[simp] theorem State.emit_mode (s : State) (bytes : List Byte) : (s.emit bytes).mode = s.mode := rfl
@[simp] theorem State.emit_misuse (s : State) (bytes : List Byte) : (s.emit bytes).misuse = s.misuse := rfl
@[simp] theorem State.emit_rsp (s : State) (bytes : List Byte) : (s.emit bytes).rsp = s.rsp ++ bytes := rfl
@[simp] theorem State.emit_cmd (s : State) (bytes : List Byte) : (s.emit bytes).cmd = s.cmd := rfl
@[simp] theorem State.emit_draws (s : State) (bytes : List Byte) : (s.emit bytes).draws = s.draws := rfl

@[simp] theorem State.emitAny_hAny (s : State) (n : Nat) : (s.emitAny n).hAny = s.hAny := rfl
@[simp] theorem State.emitAny_h (s : State) (n : Nat) : (s.emitAny n).h = s.h := rfl
@[simp] theorem State.emitAny_b (s : State) (n : Nat) : (s.emitAny n).b = s.b := rfl
@[simp] theorem State.emitAny_off (s : State) (n : Nat) : (s.emitAny n).off = s.off := rfl
@[simp] theorem State.emitAny_cnt (s : State) (n : Nat) : (s.emitAny n).cnt = s.cnt := rfl
@[simp] theorem State.emitAny_k (s : State) (n : Nat) : (s.emitAny n).k = s.k := rfl
@[simp] theorem State.emitAny_ih (s : State) (n : Nat) : (s.emitAny n).ih = s.ih := rfl
@[simp] theorem State.emitAny_phase (s : State) (n : Nat) : (s.emitAny n).phase = s.phase := rfl
@[simp] theorem State.emitAny_mode (s : State) (n : Nat) : (s.emitAny n).mode = s.mode := rfl
@[simp] theorem State.emitAny_misuse (s : State) (n : Nat) : (s.emitAny n).misuse = s.misuse := rfl
@[simp] theorem State.emitAny_rsp (s : State) (n : Nat) : (s.emitAny n).rsp = s.rsp ++ (Config.freeBytes n s.draws).toList := rfl
@[simp] theorem State.emitAny_cmd (s : State) (n : Nat) : (s.emitAny n).cmd = s.cmd := rfl
@[simp] theorem State.emitAny_draws (s : State) (n : Nat) : (s.emitAny n).draws = s.draws + n := rfl

@[simp] theorem State.bufWrite_hAny (s : State) (i : Fin 64) (d : Byte) : (s.bufWrite i d).hAny = s.hAny := rfl
@[simp] theorem State.bufWrite_h (s : State) (i : Fin 64) (d : Byte) : (s.bufWrite i d).h = s.h := rfl
@[simp] theorem State.bufWrite_b (s : State) (i : Fin 64) (d : Byte) : (s.bufWrite i d).b = s.b.set i.val d := rfl
@[simp] theorem State.bufWrite_off (s : State) (i : Fin 64) (d : Byte) : (s.bufWrite i d).off = s.off := rfl
@[simp] theorem State.bufWrite_cnt (s : State) (i : Fin 64) (d : Byte) : (s.bufWrite i d).cnt = s.cnt := rfl
@[simp] theorem State.bufWrite_k (s : State) (i : Fin 64) (d : Byte) : (s.bufWrite i d).k = s.k := rfl
@[simp] theorem State.bufWrite_ih (s : State) (i : Fin 64) (d : Byte) : (s.bufWrite i d).ih = s.ih := rfl
@[simp] theorem State.bufWrite_phase (s : State) (i : Fin 64) (d : Byte) : (s.bufWrite i d).phase = s.phase := rfl
@[simp] theorem State.bufWrite_mode (s : State) (i : Fin 64) (d : Byte) : (s.bufWrite i d).mode = s.mode := rfl
@[simp] theorem State.bufWrite_misuse (s : State) (i : Fin 64) (d : Byte) : (s.bufWrite i d).misuse = s.misuse := rfl
@[simp] theorem State.bufWrite_rsp (s : State) (i : Fin 64) (d : Byte) : (s.bufWrite i d).rsp = s.rsp := rfl
@[simp] theorem State.bufWrite_cmd (s : State) (i : Fin 64) (d : Byte) : (s.bufWrite i d).cmd = s.cmd := rfl
@[simp] theorem State.bufWrite_draws (s : State) (i : Fin 64) (d : Byte) : (s.bufWrite i d).draws = s.draws := rfl

@[simp] theorem State.setOff_hAny (s : State) (i : Fin 64) : (s.setOff i).hAny = s.hAny := rfl
@[simp] theorem State.setOff_h (s : State) (i : Fin 64) : (s.setOff i).h = s.h := rfl
@[simp] theorem State.setOff_b (s : State) (i : Fin 64) : (s.setOff i).b = s.b := rfl
@[simp] theorem State.setOff_off (s : State) (i : Fin 64) : (s.setOff i).off = i := rfl
@[simp] theorem State.setOff_cnt (s : State) (i : Fin 64) : (s.setOff i).cnt = s.cnt := rfl
@[simp] theorem State.setOff_k (s : State) (i : Fin 64) : (s.setOff i).k = s.k := rfl
@[simp] theorem State.setOff_ih (s : State) (i : Fin 64) : (s.setOff i).ih = s.ih := rfl
@[simp] theorem State.setOff_phase (s : State) (i : Fin 64) : (s.setOff i).phase = s.phase := rfl
@[simp] theorem State.setOff_mode (s : State) (i : Fin 64) : (s.setOff i).mode = s.mode := rfl
@[simp] theorem State.setOff_misuse (s : State) (i : Fin 64) : (s.setOff i).misuse = s.misuse := rfl
@[simp] theorem State.setOff_rsp (s : State) (i : Fin 64) : (s.setOff i).rsp = s.rsp := rfl
@[simp] theorem State.setOff_cmd (s : State) (i : Fin 64) : (s.setOff i).cmd = s.cmd := rfl
@[simp] theorem State.setOff_draws (s : State) (i : Fin 64) : (s.setOff i).draws = s.draws := rfl

@[simp] theorem State.setCnt_hAny (s : State) (v : Word) : (s.setCnt v).hAny = s.hAny := rfl
@[simp] theorem State.setCnt_h (s : State) (v : Word) : (s.setCnt v).h = s.h := rfl
@[simp] theorem State.setCnt_b (s : State) (v : Word) : (s.setCnt v).b = s.b := rfl
@[simp] theorem State.setCnt_off (s : State) (v : Word) : (s.setCnt v).off = s.off := rfl
@[simp] theorem State.setCnt_cnt (s : State) (v : Word) : (s.setCnt v).cnt = v := rfl
@[simp] theorem State.setCnt_k (s : State) (v : Word) : (s.setCnt v).k = s.k := rfl
@[simp] theorem State.setCnt_ih (s : State) (v : Word) : (s.setCnt v).ih = s.ih := rfl
@[simp] theorem State.setCnt_phase (s : State) (v : Word) : (s.setCnt v).phase = s.phase := rfl
@[simp] theorem State.setCnt_mode (s : State) (v : Word) : (s.setCnt v).mode = s.mode := rfl
@[simp] theorem State.setCnt_misuse (s : State) (v : Word) : (s.setCnt v).misuse = s.misuse := rfl
@[simp] theorem State.setCnt_rsp (s : State) (v : Word) : (s.setCnt v).rsp = s.rsp := rfl
@[simp] theorem State.setCnt_cmd (s : State) (v : Word) : (s.setCnt v).cmd = s.cmd := rfl
@[simp] theorem State.setCnt_draws (s : State) (v : Word) : (s.setCnt v).draws = s.draws := rfl

@[simp] theorem State.afterBlock_hAny (s : State) (c : Chain) : (s.afterBlock c).hAny = false := rfl
@[simp] theorem State.afterBlock_h (s : State) (c : Chain) : (s.afterBlock c).h = c := rfl
@[simp] theorem State.afterBlock_b (s : State) (c : Chain) : (s.afterBlock c).b = Config.freeBytes 64 s.draws := rfl
@[simp] theorem State.afterBlock_off (s : State) (c : Chain) : (s.afterBlock c).off = s.off := rfl
@[simp] theorem State.afterBlock_cnt (s : State) (c : Chain) : (s.afterBlock c).cnt = s.cnt := rfl
@[simp] theorem State.afterBlock_k (s : State) (c : Chain) : (s.afterBlock c).k = s.k := rfl
@[simp] theorem State.afterBlock_ih (s : State) (c : Chain) : (s.afterBlock c).ih = s.ih := rfl
@[simp] theorem State.afterBlock_phase (s : State) (c : Chain) : (s.afterBlock c).phase = s.phase := rfl
@[simp] theorem State.afterBlock_mode (s : State) (c : Chain) : (s.afterBlock c).mode = s.mode := rfl
@[simp] theorem State.afterBlock_misuse (s : State) (c : Chain) : (s.afterBlock c).misuse = s.misuse := rfl
@[simp] theorem State.afterBlock_rsp (s : State) (c : Chain) : (s.afterBlock c).rsp = s.rsp := rfl
@[simp] theorem State.afterBlock_cmd (s : State) (c : Chain) : (s.afterBlock c).cmd = s.cmd := rfl
@[simp] theorem State.afterBlock_draws (s : State) (c : Chain) : (s.afterBlock c).draws = s.draws + 64 := rfl

@[simp] theorem State.compress_hAny (s : State) : (s.compress).hAny = false :=
  State.afterBlock_hAny s _
@[simp] theorem State.compress_h (s : State) : (s.compress).h = compressFn s.h s.b :=
  State.afterBlock_h s _
@[simp] theorem State.compress_b (s : State) : (s.compress).b = Config.freeBytes 64 s.draws :=
  State.afterBlock_b s _
@[simp] theorem State.compress_off (s : State) : (s.compress).off = s.off :=
  State.afterBlock_off s _
@[simp] theorem State.compress_cnt (s : State) : (s.compress).cnt = s.cnt :=
  State.afterBlock_cnt s _
@[simp] theorem State.compress_k (s : State) : (s.compress).k = s.k :=
  State.afterBlock_k s _
@[simp] theorem State.compress_ih (s : State) : (s.compress).ih = s.ih :=
  State.afterBlock_ih s _
@[simp] theorem State.compress_phase (s : State) : (s.compress).phase = s.phase :=
  State.afterBlock_phase s _
@[simp] theorem State.compress_mode (s : State) : (s.compress).mode = s.mode :=
  State.afterBlock_mode s _
@[simp] theorem State.compress_misuse (s : State) : (s.compress).misuse = s.misuse :=
  State.afterBlock_misuse s _
@[simp] theorem State.compress_rsp (s : State) : (s.compress).rsp = s.rsp :=
  State.afterBlock_rsp s _
@[simp] theorem State.compress_cmd (s : State) : (s.compress).cmd = s.cmd :=
  State.afterBlock_cmd s _
@[simp] theorem State.compress_draws (s : State) : (s.compress).draws = s.draws + 64 :=
  State.afterBlock_draws s _

@[simp] theorem State.initOps_hAny (s : State) : (s.initOps).hAny = false := rfl
@[simp] theorem State.initOps_h (s : State) : (s.initOps).h = iv := rfl
@[simp] theorem State.initOps_b (s : State) : (s.initOps).b = s.b := rfl
@[simp] theorem State.initOps_off (s : State) : (s.initOps).off = 0 := rfl
@[simp] theorem State.initOps_cnt (s : State) : (s.initOps).cnt = 0 := rfl
@[simp] theorem State.initOps_k (s : State) : (s.initOps).k = s.k := rfl
@[simp] theorem State.initOps_ih (s : State) : (s.initOps).ih = s.ih := rfl
@[simp] theorem State.initOps_phase (s : State) : (s.initOps).phase = s.phase := rfl
@[simp] theorem State.initOps_mode (s : State) : (s.initOps).mode = s.mode := rfl
@[simp] theorem State.initOps_misuse (s : State) : (s.initOps).misuse = s.misuse := rfl
@[simp] theorem State.initOps_rsp (s : State) : (s.initOps).rsp = s.rsp := rfl
@[simp] theorem State.initOps_cmd (s : State) : (s.initOps).cmd = s.cmd := rfl
@[simp] theorem State.initOps_draws (s : State) : (s.initOps).draws = s.draws := rfl

@[simp] theorem State.setKey_hAny (s : State) (block : Vector Byte 64) : (s.setKey block).hAny = s.hAny := rfl
@[simp] theorem State.setKey_h (s : State) (block : Vector Byte 64) : (s.setKey block).h = s.h := rfl
@[simp] theorem State.setKey_b (s : State) (block : Vector Byte 64) : (s.setKey block).b = s.b := rfl
@[simp] theorem State.setKey_off (s : State) (block : Vector Byte 64) : (s.setKey block).off = s.off := rfl
@[simp] theorem State.setKey_cnt (s : State) (block : Vector Byte 64) : (s.setKey block).cnt = s.cnt := rfl
@[simp] theorem State.setKey_k (s : State) (block : Vector Byte 64) : (s.setKey block).k = block := rfl
@[simp] theorem State.setKey_ih (s : State) (block : Vector Byte 64) : (s.setKey block).ih = s.ih := rfl
@[simp] theorem State.setKey_phase (s : State) (block : Vector Byte 64) : (s.setKey block).phase = s.phase := rfl
@[simp] theorem State.setKey_mode (s : State) (block : Vector Byte 64) : (s.setKey block).mode = s.mode := rfl
@[simp] theorem State.setKey_misuse (s : State) (block : Vector Byte 64) : (s.setKey block).misuse = s.misuse := rfl
@[simp] theorem State.setKey_rsp (s : State) (block : Vector Byte 64) : (s.setKey block).rsp = s.rsp := rfl
@[simp] theorem State.setKey_cmd (s : State) (block : Vector Byte 64) : (s.setKey block).cmd = s.cmd := rfl
@[simp] theorem State.setKey_draws (s : State) (block : Vector Byte 64) : (s.setKey block).draws = s.draws := rfl

@[simp] theorem State.xorKey_hAny (s : State) (c : Byte) : (s.xorKey c).hAny = s.hAny := rfl
@[simp] theorem State.xorKey_h (s : State) (c : Byte) : (s.xorKey c).h = s.h := rfl
@[simp] theorem State.xorKey_b (s : State) (c : Byte) : (s.xorKey c).b = s.b := rfl
@[simp] theorem State.xorKey_off (s : State) (c : Byte) : (s.xorKey c).off = s.off := rfl
@[simp] theorem State.xorKey_cnt (s : State) (c : Byte) : (s.xorKey c).cnt = s.cnt := rfl
@[simp] theorem State.xorKey_k (s : State) (c : Byte) : (s.xorKey c).k = xorBlock c s.k := rfl
@[simp] theorem State.xorKey_ih (s : State) (c : Byte) : (s.xorKey c).ih = s.ih := rfl
@[simp] theorem State.xorKey_phase (s : State) (c : Byte) : (s.xorKey c).phase = s.phase := rfl
@[simp] theorem State.xorKey_mode (s : State) (c : Byte) : (s.xorKey c).mode = s.mode := rfl
@[simp] theorem State.xorKey_misuse (s : State) (c : Byte) : (s.xorKey c).misuse = s.misuse := rfl
@[simp] theorem State.xorKey_rsp (s : State) (c : Byte) : (s.xorKey c).rsp = s.rsp := rfl
@[simp] theorem State.xorKey_cmd (s : State) (c : Byte) : (s.xorKey c).cmd = s.cmd := rfl
@[simp] theorem State.xorKey_draws (s : State) (c : Byte) : (s.xorKey c).draws = s.draws := rfl

@[simp] theorem State.setInner_hAny (s : State) (dg : Vector Byte 20) : (s.setInner dg).hAny = s.hAny := rfl
@[simp] theorem State.setInner_h (s : State) (dg : Vector Byte 20) : (s.setInner dg).h = s.h := rfl
@[simp] theorem State.setInner_b (s : State) (dg : Vector Byte 20) : (s.setInner dg).b = s.b := rfl
@[simp] theorem State.setInner_off (s : State) (dg : Vector Byte 20) : (s.setInner dg).off = s.off := rfl
@[simp] theorem State.setInner_cnt (s : State) (dg : Vector Byte 20) : (s.setInner dg).cnt = s.cnt := rfl
@[simp] theorem State.setInner_k (s : State) (dg : Vector Byte 20) : (s.setInner dg).k = s.k := rfl
@[simp] theorem State.setInner_ih (s : State) (dg : Vector Byte 20) : (s.setInner dg).ih = dg := rfl
@[simp] theorem State.setInner_phase (s : State) (dg : Vector Byte 20) : (s.setInner dg).phase = s.phase := rfl
@[simp] theorem State.setInner_mode (s : State) (dg : Vector Byte 20) : (s.setInner dg).mode = s.mode := rfl
@[simp] theorem State.setInner_misuse (s : State) (dg : Vector Byte 20) : (s.setInner dg).misuse = s.misuse := rfl
@[simp] theorem State.setInner_rsp (s : State) (dg : Vector Byte 20) : (s.setInner dg).rsp = s.rsp := rfl
@[simp] theorem State.setInner_cmd (s : State) (dg : Vector Byte 20) : (s.setInner dg).cmd = s.cmd := rfl
@[simp] theorem State.setInner_draws (s : State) (dg : Vector Byte 20) : (s.setInner dg).draws = s.draws := rfl

@[simp] theorem State.begun_hAny (s : State) (m : Mode) : (s.begun m).hAny = s.hAny := rfl
@[simp] theorem State.begun_h (s : State) (m : Mode) : (s.begun m).h = s.h := rfl
@[simp] theorem State.begun_b (s : State) (m : Mode) : (s.begun m).b = s.b := rfl
@[simp] theorem State.begun_off (s : State) (m : Mode) : (s.begun m).off = s.off := rfl
@[simp] theorem State.begun_cnt (s : State) (m : Mode) : (s.begun m).cnt = s.cnt := rfl
@[simp] theorem State.begun_k (s : State) (m : Mode) : (s.begun m).k = s.k := rfl
@[simp] theorem State.begun_ih (s : State) (m : Mode) : (s.begun m).ih = s.ih := rfl
@[simp] theorem State.begun_phase (s : State) (m : Mode) : (s.begun m).phase = .accum := rfl
@[simp] theorem State.begun_mode (s : State) (m : Mode) : (s.begun m).mode = m := rfl
@[simp] theorem State.begun_misuse (s : State) (m : Mode) : (s.begun m).misuse = s.misuse := rfl
@[simp] theorem State.begun_rsp (s : State) (m : Mode) : (s.begun m).rsp = s.rsp := rfl
@[simp] theorem State.begun_cmd (s : State) (m : Mode) : (s.begun m).cmd = s.cmd := rfl
@[simp] theorem State.begun_draws (s : State) (m : Mode) : (s.begun m).draws = s.draws := rfl

@[simp] theorem State.finalized_hAny (s : State) : (s.finalized).hAny = s.hAny := rfl
@[simp] theorem State.finalized_h (s : State) : (s.finalized).h = s.h := rfl
@[simp] theorem State.finalized_b (s : State) : (s.finalized).b = s.b := rfl
@[simp] theorem State.finalized_off (s : State) : (s.finalized).off = s.off := rfl
@[simp] theorem State.finalized_cnt (s : State) : (s.finalized).cnt = s.cnt := rfl
@[simp] theorem State.finalized_k (s : State) : (s.finalized).k = s.k := rfl
@[simp] theorem State.finalized_ih (s : State) : (s.finalized).ih = s.ih := rfl
@[simp] theorem State.finalized_phase (s : State) : (s.finalized).phase = .final := rfl
@[simp] theorem State.finalized_mode (s : State) : (s.finalized).mode = s.mode := rfl
@[simp] theorem State.finalized_misuse (s : State) : (s.finalized).misuse = s.misuse := rfl
@[simp] theorem State.finalized_rsp (s : State) : (s.finalized).rsp = s.rsp := rfl
@[simp] theorem State.finalized_cmd (s : State) : (s.finalized).cmd = s.cmd := rfl
@[simp] theorem State.finalized_draws (s : State) : (s.finalized).draws = s.draws := rfl

@[simp] theorem State.takeMisuse_hAny (s : State) : (s.takeMisuse).hAny = true := rfl
@[simp] theorem State.takeMisuse_h (s : State) : (s.takeMisuse).h = Chain.free s.draws := rfl
@[simp] theorem State.takeMisuse_b (s : State) : (s.takeMisuse).b = Config.freeBytes 64 s.draws := rfl
@[simp] theorem State.takeMisuse_off (s : State) : (s.takeMisuse).off = Config.freeOffset s.draws := rfl
@[simp] theorem State.takeMisuse_cnt (s : State) : (s.takeMisuse).cnt = Config.freeWord (s.draws + 5) := rfl
@[simp] theorem State.takeMisuse_k (s : State) : (s.takeMisuse).k = Config.freeBytes 64 (s.draws + 64) := rfl
@[simp] theorem State.takeMisuse_ih (s : State) : (s.takeMisuse).ih = Config.freeBytes 20 (s.draws + 128) := rfl
@[simp] theorem State.takeMisuse_phase (s : State) : (s.takeMisuse).phase = s.phase := rfl
@[simp] theorem State.takeMisuse_mode (s : State) : (s.takeMisuse).mode = s.mode := rfl
@[simp] theorem State.takeMisuse_misuse (s : State) : (s.takeMisuse).misuse = true := rfl
@[simp] theorem State.takeMisuse_rsp (s : State) : (s.takeMisuse).rsp = s.rsp := rfl
@[simp] theorem State.takeMisuse_cmd (s : State) : (s.takeMisuse).cmd = s.cmd := rfl
@[simp] theorem State.takeMisuse_draws (s : State) : (s.takeMisuse).draws = s.draws + dataDraws := rfl

@[simp] theorem State.consumed_hAny (s : State) (rest : List Byte) : (s.consumed rest).hAny = s.hAny := rfl
@[simp] theorem State.consumed_h (s : State) (rest : List Byte) : (s.consumed rest).h = s.h := rfl
@[simp] theorem State.consumed_b (s : State) (rest : List Byte) : (s.consumed rest).b = s.b := rfl
@[simp] theorem State.consumed_off (s : State) (rest : List Byte) : (s.consumed rest).off = s.off := rfl
@[simp] theorem State.consumed_cnt (s : State) (rest : List Byte) : (s.consumed rest).cnt = s.cnt := rfl
@[simp] theorem State.consumed_k (s : State) (rest : List Byte) : (s.consumed rest).k = s.k := rfl
@[simp] theorem State.consumed_ih (s : State) (rest : List Byte) : (s.consumed rest).ih = s.ih := rfl
@[simp] theorem State.consumed_phase (s : State) (rest : List Byte) : (s.consumed rest).phase = s.phase := rfl
@[simp] theorem State.consumed_mode (s : State) (rest : List Byte) : (s.consumed rest).mode = s.mode := rfl
@[simp] theorem State.consumed_misuse (s : State) (rest : List Byte) : (s.consumed rest).misuse = s.misuse := rfl
@[simp] theorem State.consumed_rsp (s : State) (rest : List Byte) : (s.consumed rest).rsp = s.rsp := rfl
@[simp] theorem State.consumed_cmd (s : State) (rest : List Byte) : (s.consumed rest).cmd = rest := rfl
@[simp] theorem State.consumed_draws (s : State) (rest : List Byte) : (s.consumed rest).draws = s.draws := rfl

@[simp] theorem State.hostSend_hAny (s : State) (bytes : List Byte) : (s.hostSend bytes).hAny = s.hAny := rfl
@[simp] theorem State.hostSend_h (s : State) (bytes : List Byte) : (s.hostSend bytes).h = s.h := rfl
@[simp] theorem State.hostSend_b (s : State) (bytes : List Byte) : (s.hostSend bytes).b = s.b := rfl
@[simp] theorem State.hostSend_off (s : State) (bytes : List Byte) : (s.hostSend bytes).off = s.off := rfl
@[simp] theorem State.hostSend_cnt (s : State) (bytes : List Byte) : (s.hostSend bytes).cnt = s.cnt := rfl
@[simp] theorem State.hostSend_k (s : State) (bytes : List Byte) : (s.hostSend bytes).k = s.k := rfl
@[simp] theorem State.hostSend_ih (s : State) (bytes : List Byte) : (s.hostSend bytes).ih = s.ih := rfl
@[simp] theorem State.hostSend_phase (s : State) (bytes : List Byte) : (s.hostSend bytes).phase = s.phase := rfl
@[simp] theorem State.hostSend_mode (s : State) (bytes : List Byte) : (s.hostSend bytes).mode = s.mode := rfl
@[simp] theorem State.hostSend_misuse (s : State) (bytes : List Byte) : (s.hostSend bytes).misuse = s.misuse := rfl
@[simp] theorem State.hostSend_rsp (s : State) (bytes : List Byte) : (s.hostSend bytes).rsp = s.rsp := rfl
@[simp] theorem State.hostSend_cmd (s : State) (bytes : List Byte) : (s.hostSend bytes).cmd = s.cmd ++ bytes := rfl
@[simp] theorem State.hostSend_draws (s : State) (bytes : List Byte) : (s.hostSend bytes).draws = s.draws := rfl

/-- A read of `H` while it is `any`: fresh words, and only the draw counter moves. -/
theorem State.readChain_any (s : State) (h : s.hAny = true) :
    s.readChain = (Chain.free s.draws, { s with draws := s.draws + 5 }) := by simp [State.readChain, h]

/-- A read of a written `H` gives its words and moves nothing. -/
theorem State.readChain_known (s : State) (h : s.hAny = false) : s.readChain = (s.h, s) := by simp [State.readChain, h]

/-- A read of `H` moves nothing but the draw counter. -/
theorem State.readChain_frame (s : State) : s.readChain.2 = { s with draws := s.readChain.2.draws } := by
  cases h : s.hAny
  · rw [s.readChain_known h]; simp only [← h]
  · rw [s.readChain_any h]; simp only [h]

end Sys2Proof.Machine
end

