-- ==== Sys2Proof/Laws/Ops.lean ====
section
/-!
SUPPORT. One lemma per shared operation that says all it can do: APPEND and its repetition, the counted writes, the padding
loop (which ends, so its fuel is enough) and PAD as one string of appended bytes.
-/
namespace Sys2Proof.Machine

theorem State.SameControl.refl (s : State) : s.SameControl s := ⟨rfl, rfl, rfl, rfl, rfl, rfl, rfl⟩

theorem State.SameControl.trans {s t u : State} (h : s.SameControl t) (g : t.SameControl u) : s.SameControl u :=
  ⟨g.k.trans h.k, g.ih.trans h.ih, g.phase.trans h.phase, g.mode.trans h.mode, g.misuse.trans h.misuse,
    g.rsp.trans h.rsp, g.cmd.trans h.cmd⟩

theorem add32_eq (x y : Word) : add32 x y = x + y := rfl

/-! ### APPEND (R170) -/

theorem State.append_of_not_full (s : State) (d : Byte) (h : s.off.val ≠ 63) :
    s.append d = (s.bufWrite s.off d).setOff (s.off + 1) := by
  have : ¬ s.off.val + 1 = 64 := by omega
  simp [State.append, this]

theorem State.append_of_full (s : State) (d : Byte) (h : s.off.val = 63) :
    s.append d = (s.bufWrite s.off d).compress.setOff 0 := by
  have : s.off.val + 1 = 64 := by omega
  simp [State.append, this]

theorem State.append_sameControl (s : State) (d : Byte) : s.SameControl (s.append d) := by
  by_cases h : s.off.val = 63
  · rw [s.append_of_full d h]; constructor <;> simp
  · rw [s.append_of_not_full d h]; constructor <;> simp

@[simp] theorem State.append_cnt (s : State) (d : Byte) : (s.append d).cnt = s.cnt := by
  by_cases h : s.off.val = 63
  · rw [s.append_of_full d h]; simp
  · rw [s.append_of_not_full d h]; simp

theorem State.append_off (s : State) (d : Byte) : (s.append d).off.val = (s.off.val + 1) % 64 := by
  by_cases h : s.off.val = 63
  · rw [s.append_of_full d h]; simp [h]
  · rw [s.append_of_not_full d h]
    simp [Fin.val_add]

/-- An appended byte leaves the mark of `H`, or, where it fills the block, clears it. -/
theorem State.append_hAny (s : State) (d : Byte) :
    (s.append d).hAny = if s.off.val = 63 then false else s.hAny := by
  by_cases h : s.off.val = 63
  · rw [s.append_of_full d h]; simp [h]
  · rw [s.append_of_not_full d h]; simp [h]

theorem State.append_setCnt (s : State) (d : Byte) (v : Word) :
    (s.setCnt v).append d = (s.append d).setCnt v := by
  by_cases h : s.off.val = 63
  · rw [s.append_of_full d h, (s.setCnt v).append_of_full d h]; rfl
  · rw [s.append_of_not_full d h, (s.setCnt v).append_of_not_full d h]; rfl

theorem State.afterBlock_emit (s : State) (c : Chain) (bytes : List Byte) :
    (s.emit bytes).afterBlock c = (s.afterBlock c).emit bytes := rfl

theorem State.compress_emit (s : State) (bytes : List Byte) : (s.emit bytes).compress = s.compress.emit bytes :=
  State.afterBlock_emit s (compressFn s.h s.b) bytes

theorem State.setOff_emit (s : State) (i : Fin 64) (bytes : List Byte) :
    (s.emit bytes).setOff i = (s.setOff i).emit bytes := rfl

/-- What RSP already holds does not matter to the data path. -/
theorem State.append_emit (s : State) (d : Byte) (bytes : List Byte) :
    (s.emit bytes).append d = (s.append d).emit bytes := by
  by_cases h : s.off.val = 63
  · rw [s.append_of_full d h, (s.emit bytes).append_of_full d h, State.emit_off]
    show ((s.bufWrite s.off d).emit bytes).compress.setOff 0 = _
    rw [State.compress_emit, State.setOff_emit]
  · rw [s.append_of_not_full d h, (s.emit bytes).append_of_not_full d h]; rfl

theorem State.appendBytes_sameControl (s : State) (bytes : List Byte) : s.SameControl (s.appendBytes bytes) := by
  induction bytes generalizing s with
  | nil => exact State.SameControl.refl s
  | cons d rest ih => exact (s.append_sameControl d).trans (ih (s.append d))

@[simp] theorem State.appendBytes_cnt (s : State) (bytes : List Byte) : (s.appendBytes bytes).cnt = s.cnt := by
  induction bytes generalizing s with
  | nil => rfl
  | cons d rest ih => simp [State.appendBytes, ih]

theorem State.appendBytes_off (s : State) (bytes : List Byte) :
    (s.appendBytes bytes).off.val = (s.off.val + bytes.length) % 64 := by
  induction bytes generalizing s with
  | nil => simp [State.appendBytes]; omega
  | cons d rest ih => simp [State.appendBytes, ih, State.append_off]; omega

/-- Appended bytes clear the mark of `H` exactly where they fill a block. -/
theorem State.appendBytes_hAny (s : State) (bytes : List Byte) :
    (s.appendBytes bytes).hAny = if 64 ≤ s.off.val + bytes.length then false else s.hAny := by
  induction bytes generalizing s with
  | nil => have := s.off.isLt; rw [if_neg (by simp)]; rfl
  | cons d rest ih =>
    have hlt := s.off.isLt
    rw [State.appendBytes, ih, s.append_hAny, s.append_off, List.length_cons]
    by_cases h : s.off.val = 63
    · rw [if_pos h, ite_self, if_pos (by omega)]
    · rw [if_neg h, show (s.off.val + 1) % 64 + rest.length = s.off.val + (rest.length + 1) by omega]

theorem State.appendBytes_append (s : State) (p q : List Byte) :
    s.appendBytes (p ++ q) = (s.appendBytes p).appendBytes q := by
  induction p generalizing s with
  | nil => rfl
  | cons d rest ih => simp [State.appendBytes, ih]

theorem State.appendBytes_setCnt (s : State) (bytes : List Byte) (v : Word) :
    (s.setCnt v).appendBytes bytes = (s.appendBytes bytes).setCnt v := by
  induction bytes generalizing s with
  | nil => rfl
  | cons d rest ih => simp [State.appendBytes, State.append_setCnt, ih]

/-! ### The counted writes (R123, R124) -/

@[simp] theorem State.setCnt_setCnt (s : State) (v w : Word) : (s.setCnt v).setCnt w = s.setCnt w := rfl

/-- Counted writes are appended bytes with the counter advanced by their number, modulo 2^32. -/
theorem State.writeBytes_eq (s : State) (bytes : List Byte) :
    s.writeBytes bytes = (s.appendBytes bytes).setCnt (s.cnt + BitVec.ofNat 32 bytes.length) := by
  induction bytes generalizing s with
  | nil => simp [State.writeBytes, State.appendBytes]; rfl
  | cons d rest ih =>
    simp only [State.writeBytes, State.appendBytes, ih, State.writeOp, State.appendBytes_setCnt, State.setCnt_setCnt,
      State.setCnt_cnt, add32_eq, List.length_cons]
    congr 1
    rw [BitVec.add_assoc, Nat.add_comm rest.length 1, BitVec.ofNat_add]
    rfl

/-- Written bytes clear the mark of `H` exactly where they fill a block. -/
theorem State.writeBytes_hAny (s : State) (bytes : List Byte) :
    (s.writeBytes bytes).hAny = if 64 ≤ s.off.val + bytes.length then false else s.hAny := by
  rw [s.writeBytes_eq, State.setCnt_hAny, s.appendBytes_hAny]

theorem State.writeOp_eq (s : State) (d : Byte) : s.writeOp d = s.writeBytes [d] := rfl

theorem State.writeBytes_append (s : State) (p q : List Byte) :
    s.writeBytes (p ++ q) = (s.writeBytes p).writeBytes q := by
  induction p generalizing s with
  | nil => rfl
  | cons d rest ih => simp [State.writeBytes, ih]

theorem State.writeBytes_emit (s : State) (p bytes : List Byte) :
    (s.emit bytes).writeBytes p = (s.writeBytes p).emit bytes := by
  induction p generalizing s with
  | nil => rfl
  | cons d rest ih =>
    have h : (s.emit bytes).writeOp d = (s.writeOp d).emit bytes := by
      rw [State.writeOp, State.append_emit]; rfl
    rw [State.writeBytes, State.writeBytes, h, ih]

theorem State.emit_emit (s : State) (p q : List Byte) : (s.emit p).emit q = s.emit (p ++ q) := by
  simp [State.emit]

theorem State.writeBytes_sameControl (s : State) (bytes : List Byte) : s.SameControl (s.writeBytes bytes) := by
  rw [s.writeBytes_eq]
  obtain ⟨a, b, c, d, e, f, g⟩ := s.appendBytes_sameControl bytes
  constructor <;> simpa

/-! ### PAD (R172) -/

/-- The padding loop appends exactly the `z` zero bytes that bring `off` to 56. -/
theorem State.padZeros_eq (fuel z : Nat) (s : State) (hz : z ≤ 63) (hf : z ≤ fuel)
    (h : (s.off.val + z) % 64 = 56) : State.padZeros fuel s = s.appendBytes (List.replicate z 0x00) := by
  induction z generalizing fuel s with
  | zero =>
    have h56 : s.off.val = 56 := by have := s.off.isLt; omega
    cases fuel <;> simp [State.padZeros, State.appendBytes, h56]
  | succ z ih =>
    obtain ⟨fuel, rfl⟩ : ∃ f, fuel = f + 1 := ⟨fuel - 1, by omega⟩
    have h56 : ¬ s.off.val = 56 := by omega
    simp only [State.padZeros, h56, if_false, List.replicate_succ, State.appendBytes]
    exact ih fuel (s.append 0x00) (by omega) (by omega) (by rw [s.append_off]; omega)

/-- PAD is the padding of R128 appended, `off` standing for the message length. -/
theorem State.pad_eq (s : State) : s.pad = s.appendBytes (padding s.off.val (bitLength s.cnt)) := by
  have hlt := s.off.isLt
  rw [State.pad, State.padZeros_eq 64 (padZeroCount s.off.val) _ (by unfold padZeroCount; omega)
    (by unfold padZeroCount; omega) (by rw [s.append_off]; unfold padZeroCount; omega), ← State.appendBytes_append]
  rfl

theorem State.finish_sameControl (s : State) : s.SameControl s.finish := by
  rw [State.finish, s.pad_eq]; exact s.appendBytes_sameControl _

@[simp] theorem State.finish_cnt (s : State) : s.finish.cnt = s.cnt := by
  rw [State.finish, s.pad_eq]; simp

theorem be64_length (v : BitVec 64) : (be64 v).length = 8 := by simp [be64]

theorem padding_length (n : Nat) (bits : BitVec 64) : (padding n bits).length = 9 + padZeroCount n := by
  simp [padding, be64_length]; omega

theorem padding_mod (n : Nat) (bits : BitVec 64) : padding (n % 64) bits = padding n bits := by
  simp [padding, padZeroCount]

/-- After PAD the buffer is empty (R174). -/
theorem State.finish_off (s : State) : s.finish.off = 0 := by
  apply Fin.ext
  rw [State.finish, s.pad_eq, s.appendBytes_off, padding_length]
  simp [padZeroCount]; have := s.off.isLt; omega

/-- PAD always compresses, so `H` holds written words after it (R173). -/
@[simp] theorem State.finish_hAny (s : State) : s.finish.hAny = false := by
  have := s.off.isLt
  rw [State.finish, s.pad_eq, s.appendBytes_hAny, padding_length, if_pos (by unfold padZeroCount; omega)]

end Sys2Proof.Machine
end

