-- ==== Sys2Proof/Laws/Absorb.lean ====
section
/-!
SUPPORT. The data path against the reference functions: what the block buffer and the hash state hold after any string of
appended bytes, and the digest PAD leaves (spec/40_plain_commands.md R128, 43_hmac_commands.md R191, R197).
-/
namespace Sys2Proof.Machine

theorem zeroPad_getElem (bytes : List Byte) (i : Nat) (h : i < 64) : (zeroPad bytes)[i] = bytes.getD i 0 := by
  simp [zeroPad]

theorem zeroPad_congr {p q : List Byte} (h : ∀ i < 64, p.getD i 0 = q.getD i 0) : zeroPad p = zeroPad q := by
  apply Vector.ext
  intro i hi
  rw [zeroPad_getElem, zeroPad_getElem, h i hi]

/-- Bytes after a block do not change it. -/
theorem blockAt_append (bytes more : List Byte) (n : Nat) (h : 64 * (n + 1) ≤ bytes.length) :
    blockAt (bytes ++ more) n = blockAt bytes n := by
  apply zeroPad_congr
  intro i hi
  simp only [List.getD_eq_getElem?_getD, List.getElem?_drop]
  rw [List.getElem?_append_left (by omega)]

theorem foldBlocks_append (n : Nat) (c : Chain) (bytes more : List Byte) (h : 64 * n ≤ bytes.length) :
    foldBlocks n c (bytes ++ more) = foldBlocks n c bytes := by
  induction n with
  | zero => rfl
  | succ n ih => rw [foldBlocks, foldBlocks, ih (by omega), blockAt_append bytes more n h]

theorem State.buffered_of_init (s : State) (off : s.off = 0) (h : s.h = iv) : s.Buffered [] :=
  ⟨by simp [off], by simp [h, hashBlocks, foldBlocks], by simp [off]⟩

theorem State.initOps_absorbed (s : State) : s.initOps.Absorbed [] :=
  ⟨State.buffered_of_init _ (by simp) (by simp), by simp⟩

/-- One appended byte (R170). -/
theorem State.Buffered.append {s : State} {bytes : List Byte} (hs : s.Buffered bytes) (d : Byte) :
    (s.append d).Buffered (bytes ++ [d]) := by
  have ho := hs.offset
  have hlen : (bytes ++ [d]).length = bytes.length + 1 := by simp
  by_cases h : s.off.val = 63
  · have hoff : ((s.append d).off).val = 0 := by rw [s.append_off, h]
    refine ⟨by rw [hoff, hlen]; omega, ?_, by intro i hi; omega⟩
    have hq : (bytes.length + 1) / 64 = bytes.length / 64 + 1 := by omega
    rw [s.append_of_full d h]
    simp only [State.setOff_h, State.compress_h, State.bufWrite_h, State.bufWrite_b]
    rw [hashBlocks, hlen, hq, foldBlocks, foldBlocks_append _ _ _ _ (by omega), hs.chain, hashBlocks]
    refine congrArg (compressFn _) (Vector.ext ?_)
    intro i hi
    rw [blockAt, zeroPad_getElem]
    simp only [List.getD_eq_getElem?_getD, List.getElem?_drop, Vector.getElem_set, h]
    split
    · next he =>
      rw [List.getElem?_append_right (by omega)]
      have : 64 * (bytes.length / 64) + i - bytes.length = 0 := by omega
      simp [this]
    · next he =>
      rw [List.getElem?_append_left (by omega)]
      have := hs.buffer ⟨i, hi⟩ (by simp; omega)
      simpa [List.getD_eq_getElem?_getD] using this
  · have hoff : ((s.append d).off).val = s.off.val + 1 := by rw [s.append_off]; have := s.off.isLt; omega
    have hq : (bytes.length + 1) / 64 = bytes.length / 64 := by have := s.off.isLt; omega
    refine ⟨by rw [hoff, hlen]; have := s.off.isLt; omega, ?_, ?_⟩
    · rw [s.append_of_not_full d h]
      simp only [State.setOff_h, State.bufWrite_h]
      rw [hashBlocks, hlen, hq, foldBlocks_append _ _ _ _ (by omega), hs.chain, hashBlocks]
    · intro i hi
      rw [hoff] at hi
      rw [s.append_of_not_full d h, hlen, hq]
      simp only [State.setOff_b, State.bufWrite_b, List.getD_eq_getElem?_getD, Fin.getElem_fin, Vector.getElem_set]
      split
      · next he =>
        rw [List.getElem?_append_right (by omega)]
        have : 64 * (bytes.length / 64) + i.val - bytes.length = 0 := by omega
        simp [this]
      · next he =>
        rw [List.getElem?_append_left (by omega)]
        have := hs.buffer i (by omega)
        simpa [List.getD_eq_getElem?_getD] using this

theorem State.Buffered.appendBytes {s : State} {bytes : List Byte} (hs : s.Buffered bytes) (more : List Byte) :
    (s.appendBytes more).Buffered (bytes ++ more) := by
  induction more generalizing s bytes with
  | nil => simpa [State.appendBytes] using hs
  | cons d rest ih => simpa [State.appendBytes] using ih (hs.append d)

theorem State.Buffered.congr {s t : State} {bytes : List Byte} (hs : s.Buffered bytes) (hh : t.h = s.h)
    (hb : t.b = s.b) (ho : t.off = s.off) : t.Buffered bytes :=
  ⟨by rw [ho]; exact hs.offset, by rw [hh]; exact hs.chain, by rw [ho, hb]; exact hs.buffer⟩

theorem State.Absorbed.congr {s t : State} {m : List Byte} (hs : s.Absorbed m) (hh : t.h = s.h)
    (hb : t.b = s.b) (ho : t.off = s.off) (hc : t.cnt = s.cnt) : t.Absorbed m :=
  ⟨hs.buffered.congr hh hb ho, hc.trans hs.counted⟩

/-- Counted bytes extend the absorbed message (R123, R124). -/
theorem State.Absorbed.writeBytes {s : State} {m : List Byte} (hs : s.Absorbed m) (p : List Byte) :
    (s.writeBytes p).Absorbed (m ++ p) := by
  rw [s.writeBytes_eq]
  refine ⟨(hs.buffered.appendBytes p).congr (by simp) (by simp) (by simp), ?_⟩
  simp [hs.counted, BitVec.ofNat_add]

/-- What `Finish` returns for an absorbed message, of any length (R127, R248). -/
theorem State.Absorbed.finish_digest {s : State} {m : List Byte} (hs : s.Absorbed m) :
    s.finish.digestBytes = counterDigest m := by
  have hb := hs.buffered.appendBytes (padding s.off.val (bitLength s.cnt))
  rw [State.digestBytes, State.finish, s.pad_eq, hb.chain, counterDigest, hs.buffered.offset, padding_mod, hs.counted]

theorem counterDigest_eq_sha1 (m : List Byte) (h : m.length < 2 ^ 32) : counterDigest m = sha1 m := by
  have : bitLength (BitVec.ofNat 32 m.length) = BitVec.ofNat 64 (8 * m.length) := by
    apply BitVec.eq_of_toNat_eq
    simp [bitLength]
    omega
  rw [counterDigest, sha1, this]

/-- The key buffer after step 1 of INIT_HMAC (R190, R191). -/
theorem State.loadKeyBlock_k (s : State) (key : List Byte) (h : key.length < 65536) :
    (s.loadKeyBlock key).k = keyBlock key := by
  unfold State.loadKeyBlock keyBlock
  split
  · have := (s.initOps_absorbed.writeBytes key).finish_digest
    rw [List.nil_append] at this
    simp [this, counterDigest_eq_sha1 key (by omega)]
  · simp

theorem State.feedKey_absorbed (s : State) : s.feedKey.Absorbed s.k.toList := by
  have := s.initOps_absorbed.writeBytes s.k.toList
  simpa [State.feedKey] using this

theorem xorBlock_xorBlock (c d : Byte) (block : Vector Byte 64) :
    xorBlock d (xorBlock c block) = xorBlock (c ^^^ d) block := by
  apply Vector.ext
  intro i hi
  simp [xorBlock, BitVec.xor_assoc]

/-- ipad becomes opad (R195). -/
theorem xorBlock_ipadToOpad (block : Vector Byte 64) :
    xorBlock ipadToOpad (xorBlock ipadByte block) = xorBlock opadByte block := by
  rw [xorBlock_xorBlock]; rfl

end Sys2Proof.Machine
end

