-- ==== Sys2Proof/Laws/Compress.lean ====
section
/-!
SUPPORT. The schedule as a sequence (spec/41_compression.md R144, R145) and the rounds as a sequence of working variables
(R152).
-/
namespace Sys2Proof.Machine

/-- Expansion puts `n` words in front of what it is given. -/
theorem expand_spec (n : Nat) (l : List Word) : ∃ p, expand n l = p ++ l ∧ p.length = n := by
  induction n generalizing l with
  | zero => exact ⟨[], rfl, rfl⟩
  | succ n ih =>
    obtain ⟨p, h, hl⟩ := ih (nextWord l :: l)
    exact ⟨p ++ [nextWord l], by simp [expand, h], by simp [hl]⟩

/-- Every expanded word follows the recurrence of R145. -/
theorem expand_recurrence (n : Nat) (l : List Word) (h16 : 16 ≤ l.length) (t : Nat) (h1 : l.length ≤ t)
    (h2 : t < l.length + n) :
    (expand n l).reverse.getD t 0 =
      rol32 ((expand n l).reverse.getD (t - 3) 0 ^^^ (expand n l).reverse.getD (t - 8) 0 ^^^
        (expand n l).reverse.getD (t - 14) 0 ^^^ (expand n l).reverse.getD (t - 16) 0) 1 := by
  induction n generalizing l with
  | zero => omega
  | succ n ih =>
    by_cases e : t = l.length
    · obtain ⟨p, h, -⟩ := expand_spec n (nextWord l :: l)
      have hr : (expand (n + 1) l).reverse = l.reverse ++ (nextWord l :: p.reverse) := by simp [expand, h]
      have g0 : (l.reverse ++ (nextWord l :: p.reverse)).getD t 0 = nextWord l := by
        simp [List.getD_eq_getElem?_getD, e]
      have g : ∀ j, 1 ≤ j → j ≤ 16 →
          (l.reverse ++ (nextWord l :: p.reverse)).getD (t - j) 0 = l.getD (j - 1) 0 := by
        intro j hj hj'
        rw [List.getD_eq_getElem?_getD, List.getD_eq_getElem?_getD, List.getElem?_append_left (by simp; omega),
          List.getElem?_reverse (by omega)]
        congr 2
        omega
      rw [hr, g0, g 3, g 8, g 14, g 16] <;> first | rfl | omega
    · exact ih (nextWord l :: l) (by simp; omega) (by simp; omega) (by simp; omega)

theorem schedule_length (b : Vector Byte 64) : (schedule b).length = 80 := by
  obtain ⟨p, hp, hl⟩ := expand_spec 64 (List.ofFn (bufWord b)).reverse
  rw [schedule, hp]
  simp [hl]

/-- The working variables before round `t`, for a schedule given as a function. -/
def workingAt (W : Nat → Word) (c : Chain) (t : Nat) : Working :=
  match t with
  | 0 => loadWorking c
  | t + 1 => round t (W t) (workingAt W c t)

/-- The rounds over a list of words are the sequence over the function it lists. -/
theorem rounds_eq_workingAt (W : Nat → Word) (c : Chain) (ws : List Word) (t : Nat)
    (h : ∀ i < ws.length, ws.getD i 0 = W (t + i)) :
    rounds t ws (workingAt W c t) = workingAt W c (t + ws.length) := by
  induction ws generalizing t with
  | nil => rfl
  | cons w r ih =>
    have h0 : w = W t := by simpa using h 0 (by simp)
    have hr := ih (t + 1) (by
      intro i hi
      have hx := h (i + 1) (by simp; omega)
      rw [show t + 1 + i = t + (i + 1) by omega]
      simpa using hx)
    rw [rounds, h0, show t + (W t :: r).length = t + 1 + r.length by simp; omega]
    exact hr

end Sys2Proof.Machine
end

