-- ==== Sys2Proof/Laws/Decode.lean ====
section
/-!
SUPPORT. Small facts of the framing: the two length bytes, the payload reader on a frame and on what it accepts, and the
opcode map in both directions (spec/30_encoding.md R92 to R96).
-/
namespace Sys2Proof

/-- The length field read back (R92). -/
theorem lenOfBytes_be16 (n : Nat) (h : n < 65536) :
    lenOfBytes ((BitVec.ofNat 16 n).extractLsb' 8 8) ((BitVec.ofNat 16 n).extractLsb' 0 8) = n := by
  have : (BitVec.ofNat 16 n).extractLsb' 8 8 ++ (BitVec.ofNat 16 n).extractLsb' 0 8 = BitVec.ofNat 16 n := by
    generalize BitVec.ofNat 16 n = x
    apply BitVec.eq_of_toNat_eq
    have := x.isLt
    rw [BitVec.toNat_append, BitVec.extractLsb'_toNat, BitVec.extractLsb'_toNat, Nat.shiftRight_eq_div_pow,
      Nat.shiftRight_eq_div_pow, ← Nat.shiftLeft_add_eq_or_of_lt (by omega), Nat.shiftLeft_eq]
    omega
  rw [lenOfBytes, this]
  simp
  omega

theorem lenOfBytes_lt (hi lo : Byte) : lenOfBytes hi lo < 65536 := (hi ++ lo).isLt

/-- The length field written back. -/
theorem be16_lenOfBytes (hi lo : Byte) : be16 (lenOfBytes hi lo) = [hi, lo] := by
  have hw : BitVec.ofNat 16 (lenOfBytes hi lo) = hi ++ lo := by
    apply BitVec.eq_of_toNat_eq
    simp [lenOfBytes]
  have := hi.isLt
  have := lo.isLt
  rw [be16, hw]
  congr 1
  · apply BitVec.eq_of_toNat_eq
    rw [BitVec.extractLsb'_toNat, BitVec.toNat_append, ← Nat.shiftLeft_add_eq_or_of_lt (by omega), Nat.shiftLeft_eq,
      Nat.shiftRight_eq_div_pow]
    omega
  · congr 1
    apply BitVec.eq_of_toNat_eq
    rw [BitVec.extractLsb'_toNat, BitVec.toNat_append, ← Nat.shiftLeft_add_eq_or_of_lt (by omega), Nat.shiftLeft_eq,
      Nat.shiftRight_eq_div_pow]
    omega

/-- The payload reader on the operands of a V-format frame. -/
theorem decodePayload_be16 (build : List Byte → Instr) (p rest : List Byte) (h : p.length < 65536) :
    decodePayload build (be16 p.length ++ p ++ rest) = .command (build p) rest := by
  simp only [be16, List.cons_append, List.nil_append, decodePayload, lenOfBytes_be16 _ h]
  simp

/-- The payload reader while bytes are missing (R95). -/
theorem decodePayload_take (build : List Byte → Instr) (p : List Byte) (h : p.length < 65536) (n : Nat)
    (hn : n < 2 + p.length) : decodePayload build ((be16 p.length ++ p).take n) = .held := by
  match n with
  | 0 => rfl
  | 1 => rfl
  | n + 2 =>
    simp only [be16, List.cons_append, List.nil_append, List.take_succ_cons, decodePayload, lenOfBytes_be16 _ h]
    have : ¬ p.length ≤ (p.take n).length := by rw [List.length_take]; omega
    simp only [this, if_false]

/-- What the payload reader accepts. -/
theorem decodePayload_inv {build : List Byte → Instr} {bytes rest : List Byte} {i : Instr}
    (h : decodePayload build bytes = .command i rest) :
    ∃ p, i = build p ∧ p.length < 65536 ∧ bytes = be16 p.length ++ p ++ rest := by
  unfold decodePayload at h
  split at h
  · rename_i hi lo r
    split at h
    · next hl =>
      cases h
      have hlen : (r.take (lenOfBytes hi lo)).length = lenOfBytes hi lo := by simp; omega
      exact ⟨_, rfl, by rw [hlen]; exact lenOfBytes_lt hi lo, by rw [hlen, be16_lenOfBytes]; simp⟩
    · cases h
  · cases h

/-- The opcode map has one byte per opcode (R93). -/
theorem Opcode.eq_toByte_of_ofByte {op : Byte} {o : Opcode} (h : Opcode.ofByte op = some o) : op = o.toByte := by
  unfold Opcode.ofByte at h
  split at h <;> first | (cases h; apply BitVec.eq_of_toNat_eq; simpa [Opcode.toByte]) | cases h

theorem Opcode.ofByte_toByte (o : Opcode) : Opcode.ofByte o.toByte = some o := by cases o <;> rfl

/-- The reserved opcodes are exactly 0x06 to 0xFF (R94). -/
theorem Opcode.ofByte_eq_none_iff (op : Byte) : Opcode.ofByte op = none ↔ 6 ≤ op.toNat := by
  unfold Opcode.ofByte
  split <;> simp_all
  omega

end Sys2Proof
end

