-- ==== Sys2Proof/Laws/Exec.lean ====
section
/-!
SUPPORT. One equation per command and case: the next state as shared operations. Proofs cite these and never unfold `exec`.
-/
namespace Sys2Proof.Machine

/-- The two count bytes (R97). -/
theorem be16_eq (v : Nat) : be16 v = [BitVec.ofNat 8 (v / 256), BitVec.ofNat 8 v] := by
  unfold be16
  congr 1
  · apply BitVec.eq_of_toNat_eq
    simp [Nat.shiftRight_eq_div_pow]
    omega
  · congr 1
    apply BitVec.eq_of_toNat_eq
    simp

theorem exec_init (s : State) : exec .init s = .next (s.initOps.begun .plain) := rfl

theorem exec_write_legal (s : State) (d : Byte) (h : s.phase = .accum) :
    exec (.write d) s = .next ((s.writeBytes [d]).emit (be16 1)) := by
  simp [exec, execWrite, h, State.writeOp_eq]

theorem exec_write_misuse (s : State) (d : Byte) (h : s.phase ≠ .accum) :
    exec (.write d) s = .next (s.takeMisuse.emit (be16 1)) := by
  simp [exec, execWrite, h]

theorem exec_writen_nil (s : State) : exec (.writen []) s = .next (s.emit (be16 0)) := by
  simp [exec, execWriten]

theorem exec_writen_legal (s : State) (p : List Byte) (h : s.phase = .accum) :
    exec (.writen p) s = .next ((s.writeBytes p).emit (be16 p.length)) := by
  cases p with
  | nil => simp [exec, execWriten, State.writeBytes]
  | cons d rest => simp [exec, execWriten, h]

theorem exec_writen_misuse (s : State) (p : List Byte) (hp : p.length ≠ 0) (h : s.phase ≠ .accum) :
    exec (.writen p) s = .next (s.takeMisuse.emit (be16 p.length)) := by
  simp only [exec, execWriten, hp, h, if_false]

/-- Both write commands, in ACCUM: the payload is written and its length answered (R122, R124). -/
theorem exec_isWrite_legal (s : State) (w : Instr) (hw : w.isWrite = true) (h : s.phase = .accum) :
    exec w s = .next ((s.writeBytes w.payload).emit (be16 w.payload.length)) := by
  cases w with
  | write d => exact exec_write_legal s d h
  | writen p => exact exec_writen_legal s p h
  | init => simp [Instr.isWrite] at hw
  | result => simp [Instr.isWrite] at hw
  | initHmac key => simp [Instr.isWrite] at hw
  | resultHmac => simp [Instr.isWrite] at hw

theorem exec_result_legal (s : State) (h : s.phase = .accum) :
    exec .result s = .next (s.finish.finalized.emit s.finish.digestBytes.toList) := by
  simp [exec, execResult, h]

theorem exec_result_misuse (s : State) (h : s.phase ≠ .accum) :
    exec .result s = .next (s.takeMisuse.emitAny 20) := by
  simp [exec, execResult, h]

theorem exec_initHmac (s : State) (key : List Byte) :
    exec (.initHmac key) s = .next (((s.loadKeyBlock key).xorKey ipadByte).feedKey.begun .hmac) := rfl

theorem exec_resultHmac_legal (s : State) (h : s.phase = .accum) (hm : s.mode = .hmac) :
    exec .resultHmac s = .next (s.closeInner.runOuter.finalized.emit s.closeInner.runOuter.digestBytes.toList) := by
  simp [exec, execResultHmac, h, hm]

theorem exec_resultHmac_plain (s : State) (h : s.phase = .accum) (hm : s.mode ≠ .hmac) :
    exec .resultHmac s = .next (s.takeMisuse.finalized.emitAny 20) := by
  simp [exec, execResultHmac, h, hm]

theorem exec_resultHmac_misuse (s : State) (h : s.phase ≠ .accum) :
    exec .resultHmac s = .next (s.takeMisuse.emitAny 20) := by
  simp [exec, execResultHmac, h]

/-! ### What the HMAC commands' parts leave (R190, R194) -/

theorem State.loadKeyBlock_frame (s : State) (key : List Byte) :
    (s.loadKeyBlock key).ih = s.ih ∧ (s.loadKeyBlock key).misuse = s.misuse ∧
      (s.loadKeyBlock key).rsp = s.rsp ∧ (s.loadKeyBlock key).cmd = s.cmd := by
  by_cases hk : key.length > 64
  · have h := (s.initOps.writeBytes_sameControl key).trans (s.initOps.writeBytes key).finish_sameControl
    simp [State.loadKeyBlock, hk, h.ih, h.misuse, h.rsp, h.cmd]
  · simp [State.loadKeyBlock, hk]

theorem State.feedKey_sameControl (s : State) : s.SameControl s.feedKey := by
  have h := s.initOps.writeBytes_sameControl s.k.toList
  constructor <;> simp [State.feedKey, h.k, h.ih, h.phase, h.mode, h.misuse, h.rsp, h.cmd]

theorem State.closeInner_frame (s : State) :
    s.closeInner.k = xorBlock ipadToOpad s.k ∧ s.closeInner.ih = s.finish.digestBytes ∧
      s.closeInner.phase = s.phase ∧ s.closeInner.mode = s.mode ∧ s.closeInner.misuse = s.misuse ∧
      s.closeInner.rsp = s.rsp ∧ s.closeInner.cmd = s.cmd := by
  have h := s.finish_sameControl
  simp [State.closeInner, h.k, h.phase, h.mode, h.misuse, h.rsp, h.cmd]

theorem State.runOuter_sameControl (s : State) : s.SameControl s.runOuter :=
  (s.feedKey_sameControl.trans (s.feedKey.writeBytes_sameControl s.ih.toList)).trans (State.finish_sameControl _)

/-- The outer hash is the digest of `K` followed by `IH`, whatever else the state holds. -/
theorem State.runOuter_digest (s : State) : s.runOuter.digestBytes = sha1 (s.k.toList ++ s.ih.toList) := by
  have h := (s.feedKey_absorbed.writeBytes s.ih.toList).finish_digest
  rw [counterDigest_eq_sha1 _ (by simp)] at h
  exact h

theorem State.runOuter_cnt (s : State) : s.runOuter.cnt = 84 := by
  have h := (s.feedKey_absorbed.writeBytes s.ih.toList).counted
  rw [State.runOuter, State.finish_cnt, h]
  simp

/-- The state INIT_HMAC leaves has absorbed exactly the 64 bytes of `K`. -/
theorem exec_initHmac_absorbed (s : State) (key : List Byte) :
    ∃ t, exec (.initHmac key) s = .next t ∧ t.Absorbed t.k.toList := by
  refine ⟨_, exec_initHmac s key, ?_⟩
  have hk := ((s.loadKeyBlock key).xorKey ipadByte).feedKey_sameControl.k
  simp only [State.begun_k, hk]
  exact ((s.loadKeyBlock key).xorKey ipadByte).feedKey_absorbed.congr rfl rfl rfl rfl

/-! ### Two runs on states that differ in stale data only (R36) -/

/-- `t` has the meaningful data of `s`: the words, the offset, the counter and the first `off` bytes of the buffer. -/
structure State.SameData (s t : State) : Prop where
  chain : s.h = t.h
  offset : s.off = t.off
  count : s.cnt = t.cnt
  buffer : ∀ i : Fin 64, i.val < s.off.val → s.b[i] = t.b[i]

theorem State.SameData.append {s t : State} (h : s.SameData t) (d : Byte) : (s.append d).SameData (t.append d) := by
  have hlt := s.off.isLt
  by_cases hf : s.off.val = 63
  · have hf' : t.off.val = 63 := by rw [← h.offset]; exact hf
    have hb : s.b.set 63 d = t.b.set 63 d := by
      apply Vector.ext
      intro i hi
      simp only [Vector.getElem_set]
      split
      · rfl
      · next hne => exact h.buffer ⟨i, hi⟩ (by simp only; omega)
    rw [s.append_of_full d hf, t.append_of_full d hf']
    refine ⟨?_, by simp, by simp [h.count], by intro i hi; simp at hi⟩
    simp only [State.setOff_h, State.compress_h, State.bufWrite_h, State.bufWrite_b, hf, hf', h.chain, hb]
  · have hf' : ¬ t.off.val = 63 := by rw [← h.offset]; exact hf
    rw [s.append_of_not_full d hf, t.append_of_not_full d hf']
    refine ⟨by simp [h.chain], by simp [h.offset], by simp [h.count], ?_⟩
    intro i hi
    have hi : i.val < s.off.val + 1 := by
      have : ((s.off + 1 : Fin 64)).val = s.off.val + 1 := by rw [Fin.val_add]; simp; omega
      simp only [State.setOff_off, this] at hi
      exact hi
    simp only [State.setOff_b, State.bufWrite_b, Fin.getElem_fin, Vector.getElem_set, ← h.offset]
    split
    · rfl
    · next hne => exact h.buffer i (by omega)

theorem State.SameData.appendBytes {s t : State} (h : s.SameData t) (p : List Byte) :
    (s.appendBytes p).SameData (t.appendBytes p) := by
  induction p generalizing s t with
  | nil => exact h
  | cons d rest ih => exact ih (h.append d)

theorem State.SameData.writeBytes {s t : State} (h : s.SameData t) (p : List Byte) :
    (s.writeBytes p).SameData (t.writeBytes p) := by
  rw [s.writeBytes_eq, t.writeBytes_eq]
  obtain ⟨a, b, c, d⟩ := h.appendBytes p
  exact ⟨by simpa using a, by simpa using b, by simp [h.count], by simpa using d⟩

theorem State.SameData.finish {s t : State} (h : s.SameData t) : s.finish.SameData t.finish := by
  rw [State.finish, State.finish, s.pad_eq, t.pad_eq, h.offset, h.count]
  exact h.appendBytes _

theorem State.SameData.initOps (s t : State) : s.initOps.SameData t.initOps :=
  ⟨rfl, rfl, rfl, by intro i hi; simp at hi⟩

theorem State.SameData.of_eq {s s' t t' : State} (h : s.SameData t) (h1 : s'.h = s.h) (h2 : s'.off = s.off)
    (h3 : s'.cnt = s.cnt) (h4 : s'.b = s.b) (g1 : t'.h = t.h) (g2 : t'.off = t.off) (g3 : t'.cnt = t.cnt)
    (g4 : t'.b = t.b) : s'.SameData t' :=
  ⟨by rw [h1, g1, h.chain], by rw [h2, g2, h.offset], by rw [h3, g3, h.count],
    by rw [h2, h4, g4]; exact h.buffer⟩

theorem State.loadKeyBlock_k_eq (s t : State) (key : List Byte) : (s.loadKeyBlock key).k = (t.loadKeyBlock key).k := by
  unfold State.loadKeyBlock
  split
  · have h := ((State.SameData.initOps s t).writeBytes key).finish
    simp [State.digestBytes, h.chain]
  · simp

theorem State.SameData.feedKey {s t : State} (h : s.k = t.k) : s.feedKey.SameData t.feedKey := by
  unfold State.feedKey
  rw [h]
  exact (State.SameData.initOps s t).writeBytes _

theorem State.SameMeaning.sameData {s t : State} (h : s.SameMeaning t) (ha : s.phase = .accum) : s.SameData t :=
  ⟨h.chain ha, h.offset ha, h.count ha, h.buffer ha⟩

end Sys2Proof.Machine
end

