-- ==== Sys2Proof/Laws/PerInstr.lean ====
section
/-!
SUPPORT. The per-command family FrameLength (spec/30_encoding.md R96): a command's encoding has the frame length of its
format, from 1 to 65538 bytes.
-/
namespace Sys2Proof.Laws

theorem be16_length (v : Nat) : (be16 v).length = 2 := rfl

/-- `length(cmd)` of R96, and its range. -/
def FrameLength.Statement (i : Instr) : Prop :=
  i.wellFormed = true → (encode i).length = i.frameLength ∧ 1 ≤ i.frameLength ∧ i.frameLength ≤ 65538

theorem FrameLength.init : FrameLength.Statement .init := fun _ => by decide

theorem FrameLength.write (d : Byte) : FrameLength.Statement (.write d) := by
  intro _
  simp [encode, Instr.frameLength]

theorem FrameLength.writen (p : List Byte) : FrameLength.Statement (.writen p) := by
  intro h
  have : p.length < 65536 := by simpa [Instr.wellFormed, payloadFits] using h
  simp only [encode, Instr.frameLength, List.length_cons, List.length_append, be16_length]
  omega

theorem FrameLength.result : FrameLength.Statement .result := fun _ => by decide

theorem FrameLength.initHmac (key : List Byte) : FrameLength.Statement (.initHmac key) := by
  intro h
  have : key.length < 65536 := by simpa [Instr.wellFormed, payloadFits] using h
  simp only [encode, Instr.frameLength, List.length_cons, List.length_append, be16_length]
  omega

theorem FrameLength.resultHmac : FrameLength.Statement .resultHmac := fun _ => by decide

end Sys2Proof.Laws
end

