-- ==== Sys2Proof/Laws/Step.lean ====
section
/-!
SUPPORT. What a step can do, once; runs of commands; what a short or a block-filling string of appended bytes leaves in `B`
and `H`; and `H`, `off`, `cnt` after the key block has been fed.
-/
namespace Sys2Proof.Machine

/-- Every command completes in every state (60_exceptions.md R217, 70_reset_and_hazards.md R251). -/
theorem exec_answers (i : Instr) (s : State) : ∃ t, exec i s = .next t := by
  cases i with
  | init => exact ⟨_, exec_init s⟩
  | write d => by_cases h : s.phase = .accum; exacts [⟨_, exec_write_legal s d h⟩, ⟨_, exec_write_misuse s d h⟩]
  | writen p =>
    by_cases h : s.phase = .accum
    · exact ⟨_, exec_writen_legal s p h⟩
    · cases p with
      | nil => exact ⟨_, exec_writen_nil s⟩
      | cons d r => exact ⟨_, exec_writen_misuse s _ (by simp) h⟩
  | result => by_cases h : s.phase = .accum; exacts [⟨_, exec_result_legal s h⟩, ⟨_, exec_result_misuse s h⟩]
  | initHmac key => exact ⟨_, exec_initHmac s key⟩
  | resultHmac =>
    by_cases h : s.phase = .accum
    · by_cases g : s.mode = .hmac
      exacts [⟨_, exec_resultHmac_legal s h g⟩, ⟨_, exec_resultHmac_plain s h g⟩]
    · exact ⟨_, exec_resultHmac_misuse s h⟩

/-- A step that answers a state has held, or has executed one decoded command. -/
theorem step_cases {s t : State} (h : step s = .next t) :
    t = s ∨ ∃ i rest, decode s.cmd = .command i rest ∧ exec i (s.consumed rest) = .next t := by
  unfold step at h
  split at h
  · next i rest hd => exact .inr ⟨i, rest, hd, h⟩
  · exact .inl (Host.Outcome.next.inj h).symm
  · cases h

theorem execAll_append (a b : List Instr) (s t : State) (h : execAll a s = .next t) :
    execAll (a ++ b) s = execAll b t := by
  induction a generalizing s with
  | nil => cases h; rfl
  | cons i r ih =>
    obtain ⟨u, hu⟩ := exec_answers i s
    simp only [List.cons_append, execAll, hu] at h ⊢
    exact ih u h

/-- A session: an init, some commands, a result. -/
theorem execAll_session (first last : Instr) (ws : List Instr) (s u v w : State) (h1 : exec first s = .next u)
    (h2 : execAll ws u = .next v) (h3 : exec last v = .next w) : execAll (first :: (ws ++ [last])) s = .next w := by
  simp only [execAll, h1]
  rw [execAll_append _ _ _ _ h2]
  simp only [execAll, h3]

/-- Write commands in ACCUM, one after another: all payload bytes written, one count answered for each command. -/
theorem execAll_writes (s : State) (ws : List Instr) (h : s.phase = .accum) (hw : ∀ w ∈ ws, w.isWrite = true) :
    execAll ws s = .next ((s.writeBytes (ws.flatMap Instr.payload)).emit
      (ws.flatMap fun w => [BitVec.ofNat 8 (w.payload.length / 256), BitVec.ofNat 8 w.payload.length])) := by
  induction ws generalizing s with
  | nil => simp [execAll, State.writeBytes, State.emit]
  | cons w r ih =>
    have h1 := exec_isWrite_legal s w (hw w (by simp)) h
    simp only [execAll, h1]
    rw [ih _ (by simp [(s.writeBytes_sameControl w.payload).phase, h]) (fun x hx => hw x (by simp [hx]))]
    simp only [List.flatMap_cons, State.writeBytes_append, be16_eq]
    rw [State.writeBytes_emit, State.emit_emit]

/-- Appended bytes that do not fill the block. -/
theorem State.appendBytes_of_lt (s : State) (p : List Byte) (h : s.off.val + p.length < 64) :
    (s.appendBytes p).h = s.h ∧ ∀ i : Fin 64, (s.appendBytes p).b[i] =
      if s.off.val ≤ i.val ∧ i.val < s.off.val + p.length then p.getD (i.val - s.off.val) 0 else s.b[i] := by
  induction p generalizing s with
  | nil => exact ⟨rfl, by intro i; simp [State.appendBytes]⟩
  | cons d r ih =>
    simp only [List.length_cons] at h
    have hf : s.off.val ≠ 63 := by omega
    have ho : (s.append d).off.val = s.off.val + 1 := by rw [s.append_off]; omega
    obtain ⟨h1, h2⟩ := ih (s.append d) (by omega)
    refine ⟨by rw [State.appendBytes, h1, s.append_of_not_full d hf]; simp, ?_⟩
    intro i
    rw [State.appendBytes, h2, ho]
    simp only [s.append_of_not_full d hf, State.setOff_b, State.bufWrite_b, Fin.getElem_fin, Vector.getElem_set,
      List.length_cons]
    by_cases e : i.val = s.off.val
    · simp [e]
    · by_cases g : s.off.val + 1 ≤ i.val ∧ i.val < s.off.val + 1 + r.length
      · have g' : s.off.val ≤ i.val ∧ i.val < s.off.val + (r.length + 1) := by omega
        have e2 : i.val - s.off.val = (i.val - (s.off.val + 1)) + 1 := by omega
        simp only [g, g', and_self, if_true, e2]
        rfl
      · have g' : ¬ (s.off.val ≤ i.val ∧ i.val < s.off.val + (r.length + 1)) := by omega
        have e' : ¬ s.off.val = i.val := by omega
        simp only [g, g', if_false, e']

/-- Appended bytes that fill the block exactly: one compression of what the buffer held and the bytes. -/
theorem State.appendBytes_fill (s : State) (p : List Byte) (hp : p ≠ []) (h : s.off.val + p.length = 64) :
    (s.appendBytes p).h = compressFn s.h (zeroPad (s.b.toList.take s.off.val ++ p)) := by
  obtain ⟨q, d, rfl⟩ : ∃ q d, p = q ++ [d] := ⟨p.dropLast, p.getLast hp, (List.dropLast_append_getLast hp).symm⟩
  simp only [List.length_append, List.length_cons, List.length_nil] at h
  obtain ⟨h1, h2⟩ := s.appendBytes_of_lt q (by omega)
  have ho : (s.appendBytes q).off.val = 63 := by rw [s.appendBytes_off]; omega
  rw [State.appendBytes_append]
  simp only [State.appendBytes, State.append_of_full _ d ho, State.setOff_h, State.compress_h, State.bufWrite_h,
    State.bufWrite_b, h1]
  refine congrArg (compressFn _) (Vector.ext ?_)
  intro i hi
  rw [zeroPad_getElem _ _ hi]
  have h2i := h2 ⟨i, hi⟩
  simp only [Fin.getElem_fin] at h2i
  simp only [Vector.getElem_set, ho, h2i, List.getD_eq_getElem?_getD]
  have hl : (s.b.toList.take s.off.val).length = s.off.val := by simp
  by_cases e : 63 = i
  · subst e
    rw [← List.append_assoc, List.getElem?_append_right (by simp; omega)]
    have : 63 - (s.b.toList.take s.off.val ++ q).length = 0 := by simp; omega
    rw [this]
    simp
  · rw [if_neg e]
    by_cases g : s.off.val ≤ i
    · rw [if_pos ⟨g, by omega⟩, List.getElem?_append_right (by omega), hl, List.getElem?_append_left (by omega)]
    · rw [if_neg (by omega), List.getElem?_append_left (by omega), List.getElem?_take]
      simp [show i < s.off.val by omega, hi]

theorem hashBlocks_block (v : Vector Byte 64) : hashBlocks v.toList = compressFn iv v := by
  have : v.toList.length / 64 = 1 := by simp
  rw [hashBlocks, this, foldBlocks, foldBlocks, blockAt]
  refine congrArg (compressFn iv) (Vector.ext ?_)
  intro i hi
  rw [zeroPad_getElem _ _ hi]
  simp [hi]

/-- After the 64 bytes of `K` have been fed (R190, R194). -/
theorem State.feedKey_data (s : State) : s.feedKey.h = compressFn iv s.k ∧ s.feedKey.off = 0 ∧ s.feedKey.cnt = 64 := by
  have h := s.feedKey_absorbed
  exact ⟨by rw [h.buffered.chain, hashBlocks_block], Fin.ext (by rw [h.buffered.offset]; simp),
    by rw [h.counted]; simp⟩

/-- The 64 bytes of `K` fill a block, so `H` holds written words. -/
theorem State.feedKey_hAny (s : State) : s.feedKey.hAny = false := by
  rw [State.feedKey, State.writeBytes_hAny, if_pos (by simp)]

theorem State.runOuter_off (s : State) : s.runOuter.off = 0 := State.finish_off _

theorem State.runOuter_hAny (s : State) : s.runOuter.hAny = false := State.finish_hAny _

/-- The mark of `H` after every command: a misuse sets it, `InitOps` and a compression clear it (R121, R154, R213). -/
theorem exec_hAny {i : Instr} {s t : State} (h : exec i s = .next t) :
    t.hAny = (isMisuse i s.phase s.mode ||
      (i.isWrite && decide (s.off.val + i.payload.length < 64) && s.hAny)) := by
  have wb : ∀ p : List Byte, (s.writeBytes p).hAny = (decide (s.off.val + p.length < 64) && s.hAny) := by
    intro p
    rw [s.writeBytes_hAny]
    by_cases g : 64 ≤ s.off.val + p.length
    · simp [g, Nat.not_lt.2 g]
    · simp [g, Nat.not_le.1 g]
  cases i with
  | init => rw [exec_init] at h; simp [← Host.Outcome.next.inj h, isMisuse, Instr.isWrite]
  | write d =>
    by_cases g : s.phase = .accum
    · rw [exec_write_legal s d g] at h
      rw [← Host.Outcome.next.inj h, State.emit_hAny, wb]
      simp [isMisuse, g, Instr.isWrite, Instr.payload]
    · rw [exec_write_misuse s d g] at h
      simp [← Host.Outcome.next.inj h, isMisuse, Instr.isWrite, g]
  | writen p =>
    by_cases g : s.phase = .accum
    · rw [exec_writen_legal s p g] at h
      rw [← Host.Outcome.next.inj h, State.emit_hAny, wb]
      simp [isMisuse, g, Instr.isWrite, Instr.payload]
      rfl
    · cases p with
      | nil =>
        rw [exec_writen_nil s] at h
        simp [← Host.Outcome.next.inj h, isMisuse, Instr.isWrite, Instr.payload]
      | cons d r =>
        rw [exec_writen_misuse s _ (by simp) g] at h
        simp [← Host.Outcome.next.inj h, isMisuse, Instr.isWrite, g]
  | result =>
    by_cases g : s.phase = .accum
    · rw [exec_result_legal s g] at h
      simp [← Host.Outcome.next.inj h, isMisuse, Instr.isWrite, g]
    · rw [exec_result_misuse s g] at h
      simp [← Host.Outcome.next.inj h, isMisuse, Instr.isWrite, g]
  | initHmac key =>
    rw [exec_initHmac] at h
    simp [← Host.Outcome.next.inj h, isMisuse, Instr.isWrite, State.feedKey_hAny]
  | resultHmac =>
    by_cases g : s.phase = .accum
    · by_cases m : s.mode = .hmac
      · rw [exec_resultHmac_legal s g m] at h
        simp [← Host.Outcome.next.inj h, isMisuse, Instr.isWrite, g, m, State.runOuter_hAny]
      · rw [exec_resultHmac_plain s g m] at h
        simp [← Host.Outcome.next.inj h, isMisuse, Instr.isWrite, g, m]
    · rw [exec_resultHmac_misuse s g] at h
      simp [← Host.Outcome.next.inj h, isMisuse, Instr.isWrite, g]

end Sys2Proof.Machine
end

