-- ==== Sys2Proof/Tests/Slice0.lean ====
section
/-!
SUPPORT. The model's own tests: WellFormed refuses what it must, frames written out from spec/30_encoding.md decode, words and
steps against the vectors of spec/95_test_vectors.md (each cited; none is the model's own answer), and for every
obligation with hypotheses a witness that meets them together.
-/
namespace Sys2Proof.Tests
open Sys2Proof Sys2Proof.Machine

/-! ### Helpers -/

/-- The engine after reset and INIT. -/
def begunPlain : State := State.reset.initOps.begun .plain

/-- In ACCUM with the buffer bytes `bytes` behind `off`, the counter and the words given. -/
def midway (c : Chain) (bytes : List Byte) (cnt : Word) : State :=
  { begunPlain with h := c, b := zeroPad bytes, off := Fin.ofNat 64 bytes.length, cnt := cnt }

/-- `midway` in mode HMAC with the key buffer `k`. -/
def midwayHmac (c : Chain) (bytes : List Byte) (cnt : Word) (k : Vector Byte 64) : State :=
  { midway c bytes cnt with mode := .hmac, k := k }

/-- A property of the next state. -/
def nextHolds (o : Host.Outcome State Fault Refusal) (p : State → Bool) : Bool :=
  match o with
  | .next t => p t
  | .fault _ => false
  | .refused _ => false

def isReserved (o : Host.Outcome State Fault Refusal) (op : Byte) : Bool :=
  match o with
  | .next _ => false
  | .fault _ => false
  | .refused r => decide (r = .reservedOpcode op)

/-- Bytes `0, 1, ..., n - 1`. -/
def countUp (n : Nat) : List Byte := (List.range n).map (BitVec.ofNat 8)

/-- "The quick brown fox jumps over the lazy dog", 43 bytes (V20). -/
def foxBytes : List Byte :=
  [0x54, 0x68, 0x65, 0x20, 0x71, 0x75, 0x69, 0x63, 0x6b, 0x20, 0x62, 0x72, 0x6f, 0x77, 0x6e, 0x20, 0x66, 0x6f, 0x78,
    0x20, 0x6a, 0x75, 0x6d, 0x70, 0x73] ++
  [0x20, 0x6f, 0x76, 0x65, 0x72, 0x20, 0x74, 0x68, 0x65, 0x20, 0x6c, 0x61, 0x7a, 0x79, 0x20, 0x64, 0x6f, 0x67]

/-- ipad of the key "key": `5d 53 4f` then 61 bytes `36` (V20). -/
def ipadOfKey : Vector Byte 64 :=
  Vector.ofFn fun i => if i.val = 0 then 0x5d else if i.val = 1 then 0x53 else if i.val = 2 then 0x4f else 0x36

/-! ### WellFormed: one ill-formed command per check, and the boundary (R92, U12) -/

theorem payloadFits_replicate (n : Nat) : payloadFits (List.replicate n 0) = decide (n < 65536) := by simp [payloadFits]

theorem test_writen_of_65536_bytes_is_ill_formed (p : List Byte) (h : p.length = 65536) :
    (Instr.writen p).wellFormed = false := by simp [Instr.wellFormed, payloadFits, h]

theorem test_writen_of_65535_bytes_is_well_formed (p : List Byte) (h : p.length = 65535) :
    (Instr.writen p).wellFormed = true := by simp [Instr.wellFormed, payloadFits, h]

theorem test_initHmac_of_65536_bytes_is_ill_formed (p : List Byte) (h : p.length = 65536) :
    (Instr.initHmac p).wellFormed = false := by simp [Instr.wellFormed, payloadFits, h]

/-- Payloads of those lengths exist: the term the check refuses, and the longest it accepts. -/
theorem test_payload_lengths :
    payloadFits (List.replicate 65536 0) = false ∧ payloadFits (List.replicate 65535 0) = true := by
  rw [payloadFits_replicate, payloadFits_replicate]
  decide

/-! ### Decoding, frames written out from R91 and V40 -/

theorem test_decode_init : decode [0x00] = .command .init [] := by decide

theorem test_decode_write_opcode_as_data : decode [0x01, 0x03] = .command (.write 0x03) [] := by decide

theorem test_decode_writen_abc : decode [0x02, 0x00, 0x03, 0x61, 0x62, 0x63] = .command (.writen [0x61, 0x62, 0x63]) [] := by
  decide

theorem test_decode_writen_leaves_result :
    decode [0x02, 0x00, 0x02, 0x03, 0x05, 0x03] = .command (.writen [0x03, 0x05]) [0x03] := by decide

theorem test_decode_length_is_big_endian : lenOfBytes 0x01 0x2c = 300 := by decide

theorem test_decode_result : decode [0x03] = .command .result [] := by decide

theorem test_decode_initHmac_empty_key : decode [0x04, 0x00, 0x00] = .command (.initHmac []) [] := by decide

theorem test_decode_initHmac_key :
    decode [0x04, 0x00, 0x03, 0x6b, 0x65, 0x79] = .command (.initHmac [0x6b, 0x65, 0x79]) [] := by decide

theorem test_decode_resultHmac : decode [0x05] = .command .resultHmac [] := by decide

theorem test_decode_reserved :
    decode [0x06] = .reserved 0x06 ∧ decode [0x7f, 0x00] = .reserved 0x7f ∧ decode [0xff] = .reserved 0xff := by decide

theorem test_decode_truncated : decode [0x02, 0x00, 0x03, 0x61, 0x62] = .held ∧ decode [0x01] = .held := by decide

theorem test_encode_written_out :
    encode .init = [0x00] ∧ encode (.write 0x61) = [0x01, 0x61] ∧ encode (.writen [0x61]) = [0x02, 0x00, 0x01, 0x61] ∧
      encode .result = [0x03] ∧ encode (.initHmac []) = [0x04, 0x00, 0x00] ∧ encode .resultHmac = [0x05] := by decide

/-- The opcode table's words: only byte 0 has bits there, every operand byte is zero. -/
theorem test_table_words :
    decodeTableWord 8 0 = some .init ∧ decodeTableWord 8 1 = some (.write 0) ∧ decodeTableWord 8 2 = some (.writen []) ∧
      decodeTableWord 8 3 = some .result ∧ decodeTableWord 8 4 = some (.initHmac []) ∧
      decodeTableWord 8 5 = some .resultHmac ∧ decodeTableWord 8 6 = none := by decide

theorem test_table_word_with_length : decodeTableWord 24 0x020002 = some (.writen [0x00, 0x00]) := by decide

theorem test_fetch_word_is_the_frame : (State.reset.withFetchWord 8 4).cmd = [0x04, 0x00, 0x00] := by decide

theorem test_first_step_after_reset :
    nextHolds (step (State.reset.withFetchWord 8 0)) (fun t => decide (t.phase = .accum ∧ t.mode = .plain)) = true ∧
      nextHolds (step (State.reset.withFetchWord 8 4)) (fun t => decide (t.phase = .accum ∧ t.mode = .hmac)) = true := by
  decide

theorem test_reserved_opcode_is_refused : isReserved (step (State.reset.hostSend [0x06, 0x00])) 0x06 = true := by decide

theorem test_assembly_text : Instr.assembly (.writen [0x61, 0x0f]) = "WRITEN 0x61 0x0f" := by decide

/-! ### Words and bytes: V30, V33, V34 -/

theorem test_rol32 :
    rol32 0x12345678 5 = 0x468acf02 ∧ rol32 0x12345678 30 = 0x048d159e ∧ rol32 0x12345678 31 = 0x091a2b3c ∧
      rol32 0x12345678 0 = 0x12345678 ∧ rol32 0x12345678 32 = 0x12345678 ∧ rol32 0x80000001 1 = 0x00000003 := by decide

theorem test_be32 : be32 0x61 0x62 0x63 0x80 = 0x61626380 ∧ be32 0x12 0x34 0x56 0x78 = 0x12345678 := by decide

theorem test_ser :
    (ser ⟨0x00000001, 0x00000000, 0x80000000, 0xffffffff, 0x01020304⟩).toList =
      [0x00, 0x00, 0x00, 0x01, 0x00, 0x00, 0x00, 0x00, 0x80, 0x00, 0x00, 0x00, 0xff, 0xff, 0xff, 0xff,
        0x01, 0x02, 0x03, 0x04] := by decide +kernel

theorem test_trailer :
    trailer 0x12345678 = [0x00, 0x00, 0x00, 0x00, 0x91, 0xa2, 0xb3, 0xc0] ∧
      trailer 0x20000000 = [0x00, 0x00, 0x00, 0x01, 0x00, 0x00, 0x00, 0x00] ∧
      trailer 0xffffffff = [0x00, 0x00, 0x00, 0x07, 0xff, 0xff, 0xff, 0xf8] := by decide +kernel

/-! ### The compression: V31, V32, V35 -/

theorem test_stage_functions :
    ch 0xffff0000 0xff00ff00 0xf0f0f0f0 = 0xff00f0f0 ∧ parity 0xffff0000 0xff00ff00 0xf0f0f0f0 = 0xf00f0ff0 ∧
      maj 0xffff0000 0xff00ff00 0xf0f0f0f0 = 0xfff0f000 := by decide

theorem test_round_zero :
    round 0 0x61626380 (loadWorking iv) = ⟨0x0116fc33, 0x67452301, 0x7bf36ae2, 0x98badcfe, 0x10325476⟩ := by
  decide +kernel

theorem test_round_twenty :
    (round 20 0x00000000 ⟨0xfd9e1d7d, 0xdc64901d, 0x20aa99ca, 0xd3a49608, 0xc82f758b⟩).a = 0x1a37b0ca := by
  decide +kernel

theorem test_schedule_of_abc :
    (schedule (zeroPad ([0x61, 0x62, 0x63, 0x80] ++ List.replicate 59 0 ++ [0x18]))).getD 79 0 = 0x822e0879 := by
  decide +kernel

theorem test_compress_zero :
    compressFn ⟨0, 0, 0, 0, 0⟩ (zeroPad []) = ⟨0x9e1547ed, 0x57ec91c2, 0x30fa8bc8, 0xc7785a54, 0xa7efa5e3⟩ := by
  decide +kernel

theorem test_compress_padded_empty :
    compressFn iv (zeroPad [0x80]) = ⟨0xda39a3ee, 0x5e6b4b0d, 0x3255bfef, 0x95601890, 0xafd80709⟩ := by decide +kernel

/-! ### The commands, one step each -/

/-- R120's example. -/
theorem test_init :
    nextHolds (exec .init State.reset) (fun t => decide (t.h = iv ∧ t.off = 0 ∧ t.cnt = 0 ∧ t.status = 0x01)) = true := by
  decide +kernel

/-- R122's example. -/
theorem test_write_after_init :
    nextHolds (exec (.write 0x61) begunPlain)
      (fun t => decide (t.b[0] = 0x61 ∧ t.off = 1 ∧ t.cnt = 1 ∧ t.rsp = [0x00, 0x01])) = true := by decide +kernel

/-- V42: the 64th byte with the counter at its largest value. -/
theorem test_write_wraps_the_counter :
    nextHolds (exec (.write 0x3f) (midway iv (countUp 63) 0xffffffff))
      (fun t => decide (t.h = ⟨0xb9ac757b, 0xbc297925, 0x2e227274, 0x06872f94, 0xcbea56a1⟩ ∧ t.off = 0 ∧ t.cnt = 0
        ∧ t.misuse = false)) = true := by decide +kernel

/-- V10 (c): bytes 1 to 63 after byte 0. -/
theorem test_writen_fills_the_block :
    nextHolds (exec (.writen ((countUp 64).drop 1)) (midway iv [0x00] 1))
      (fun t => decide (t.h = ⟨0xb9ac757b, 0xbc297925, 0x2e227274, 0x06872f94, 0xcbea56a1⟩ ∧ t.off = 0 ∧ t.cnt = 64
        ∧ t.rsp = [0x00, 0x3f])) = true := by decide +kernel

/-- V41: `len = 0` in UNINIT is legal and changes no flag. -/
theorem test_writen_of_nothing_in_uninit :
    nextHolds (exec (.writen []) State.reset) (fun t => decide (t.status = 0x00 ∧ t.rsp = [0x00, 0x00])) = true := by
  decide +kernel

/-- V2: "abc". -/
theorem test_result_abc :
    nextHolds (exec .result (midway iv [0x61, 0x62, 0x63] 3))
      (fun t => decide (t.rsp = [0xa9, 0x99, 0x3e, 0x36, 0x47, 0x06, 0x81, 0x6a, 0xba, 0x3e, 0x25, 0x71, 0x78, 0x50,
        0xc2, 0x6c, 0x9c, 0xd0, 0xd8, 0x9d] ∧ t.off = 0 ∧ t.cnt = 3 ∧ t.status = 0x02)) = true := by decide +kernel

/-- V4: 56 bytes `61`, the shortest message whose padding takes two blocks. -/
theorem test_result_two_blocks :
    nextHolds (exec .result (midway iv (List.replicate 56 0x61) 56))
      (fun t => decide (t.h = ⟨0xc2db330f, 0x6083854c, 0x99d4b5bf, 0xb6e8f29f, 0x201be699⟩)) = true := by decide +kernel

/-- V20: the key "key". -/
theorem test_initHmac_short_key :
    nextHolds (exec (.initHmac [0x6b, 0x65, 0x79]) State.reset)
      (fun t => decide (t.k = ipadOfKey ∧ t.h = ⟨0x57b4b350, 0x61f380ab, 0x43e75e56, 0x411305a2, 0x588b71ba⟩
        ∧ t.off = 0 ∧ t.cnt = 64 ∧ t.status = 0x05)) = true := by decide +kernel

/-- V21: the shortest hashed key, 65 bytes `00` to `40`. -/
theorem test_initHmac_long_key :
    nextHolds (exec (.initHmac (countUp 65)) State.reset)
      (fun t => decide (t.k[0] = 0x5f ∧ t.k[19] = 0x70 ∧ t.k[20] = 0x36
        ∧ t.h = ⟨0xad0dc302, 0xdd881f39, 0xe44c189e, 0x59899630, 0x9a4a0e32⟩)) = true := by decide +kernel

/-- V20: the fox message under the key "key". -/
theorem test_resultHmac_fox :
    nextHolds (exec .resultHmac (midwayHmac ⟨0x57b4b350, 0x61f380ab, 0x43e75e56, 0x411305a2, 0x588b71ba⟩ foxBytes 107
        ipadOfKey))
      (fun t => decide (t.rsp = [0xde, 0x7c, 0x9b, 0x85, 0xb8, 0xb7, 0x8a, 0xa6, 0xbc, 0x8a, 0x7a, 0x36, 0xf7, 0x0a,
        0x90, 0x70, 0x1c, 0x9d, 0xb4, 0xd9] ∧ t.cnt = 84 ∧ t.k[0] = 0x37 ∧ t.k[63] = 0x5c ∧ t.ih[0] = 0x0e
        ∧ t.status = 0x06)) = true := by decide +kernel

/-- V41: RESULT_HMAC in mode PLAIN is a misuse that moves to FINAL. -/
theorem test_resultHmac_in_plain :
    nextHolds (exec .resultHmac begunPlain)
      (fun t => decide (t.status = 0x0a ∧ t.rsp.length = 20)) = true := by decide +kernel

/-! ### Witnesses: states and operands that meet the hypotheses of each obligation together, each clause at its boundary -/

/-- `begunPlain` with other stale buffer bytes, key and inner bytes. -/
def begunStale : State :=
  { begunPlain with b := zeroPad [0x01], k := zeroPad [0x02], ih := Vector.replicate 20 0x03, draws := 0 }

/-- The engine after reset and INIT_HMAC with the empty key. -/
def begunHmac : State := ((State.reset.loadKeyBlock []).xorKey ipadByte).feedKey.begun .hmac

/-- Two write commands, five bytes. -/
def someWrites : List Instr := [.write 0x61, .writen [0x62, 0x63], .writen [], .writen [0x64, 0x65]]

theorem witness_DecodeOfEncode : (Instr.writen [0x61]).wellFormed = true ∧ (Instr.initHmac []).wellFormed = true := by decide

theorem witness_EncodeOfDecode :
    decode [0x02, 0x00, 0x01, 0x61, 0x03] = .command (.writen [0x61]) [0x03] := by decide

theorem witness_OnlyReservedOpcodesAreRefused :
    (State.reset.hostSend [0x06]).cmd = 0x06 :: [] ∧ 6 ≤ (0x06 : Byte).toNat ∧
      (State.reset.hostSend [0xff, 0x00]).cmd = 0xff :: [0x00] ∧ 6 ≤ (0xff : Byte).toNat ∧
      step (State.reset.hostSend [0x06]) = .refused (.reservedOpcode 0x06) := by
  refine ⟨rfl, by decide, rfl, by decide, rfl⟩

theorem witness_TruncatedFrameHoldsUntilCompleted :
    (Instr.writen [0x61]).wellFormed = true ∧ 3 < (encode (.writen [0x61])).length ∧
      (State.reset.hostSend [0x02, 0x00, 0x01]).cmd = (encode (.writen [0x61])).take 3 ∧
      0 < (encode .init).length ∧ State.reset.cmd = (encode .init).take 0 := by
  refine ⟨by decide, by decide, by decide, by decide, rfl⟩

theorem witness_StepRunsTheDecodedCommand :
    decode (State.reset.hostSend [0x01, 0x61, 0x00]).cmd = .command (.write 0x61) [0x00] := by decide

theorem witness_StepConsumesExactlyOneFrame :
    (Instr.write 0x61).wellFormed = true ∧
      (State.reset.hostSend [0x01, 0x61, 0x00]).cmd = encode (.write 0x61) ++ [0x00] := by decide

theorem witness_InitIsIdempotent : exec .init State.reset = .next begunPlain := rfl

theorem witness_WriteAppendsOneByte :
    begunPlain.phase = .accum ∧ begunPlain.off.val < 63 ∧
      (midway iv (countUp 62) 62).phase = .accum ∧ (midway iv (countUp 62) 62).off.val < 63 ∧
      (midway iv (countUp 63) 63).phase = .accum ∧ (midway iv (countUp 63) 63).off.val = 63 := by
  refine ⟨rfl, by decide, rfl, by decide, rfl, by decide⟩

theorem witness_WritenAppendsThePayload :
    (midway iv (countUp 62) 62).phase = .accum ∧ ([0x61] : List Byte) ≠ [] ∧
      (midway iv (countUp 62) 62).off.val + ([0x61] : List Byte).length < 64 := by
  refine ⟨rfl, by decide, by decide⟩

theorem witness_IncrementalWritesAreEquivalent :
    begunPlain.phase = .accum ∧ ∀ w ∈ someWrites, w.isWrite = true := ⟨rfl, by decide⟩

theorem begunPlain_absorbed : begunPlain.Absorbed [] := State.initOps_absorbed State.reset |>.congr rfl rfl rfl rfl

theorem witness_WritesExtendTheAbsorbedMessage :
    begunPlain.phase = .accum ∧ (Instr.writen [0x61]).isWrite = true ∧ begunPlain.Absorbed [] :=
  ⟨rfl, rfl, begunPlain_absorbed⟩

theorem witness_ResultPadsAndAnswers :
    (midway iv (countUp 55) 55).phase = .accum ∧ (midway iv (countUp 55) 55).off.val ≤ 55 ∧
      (midway iv (countUp 56) 56).phase = .accum ∧ 56 ≤ (midway iv (countUp 56) 56).off.val := by
  refine ⟨rfl, by decide, rfl, by decide⟩

theorem witness_PlainCommandsComputeSha1 :
    (∀ w ∈ someWrites, w.isWrite = true) ∧ (someWrites.flatMap Instr.payload).length < 2 ^ 32 := by decide

theorem witness_InitHmacStartsTheInnerHash :
    (countUp 64).length < 65536 ∧ ¬ 64 < (countUp 64).length ∧ (countUp 65).length < 65536 ∧ 64 < (countUp 65).length := by
  decide

theorem witness_LongKeyEqualsItsDigestAsKey : 64 < (countUp 65).length ∧ (countUp 65).length < 65536 := by decide

theorem begunHmac_accum : begunHmac.phase = .accum ∧ begunHmac.mode = .hmac := ⟨rfl, rfl⟩

theorem begunHmac_absorbed : begunHmac.Absorbed begunHmac.k.toList := by
  obtain ⟨t, ht, ha⟩ := exec_initHmac_absorbed State.reset []
  rw [exec_initHmac] at ht
  have := Host.Outcome.next.inj ht
  rw [begunHmac, this]
  exact ha

theorem witness_ResultHmacRunsTheOuterHash : begunHmac.phase = .accum ∧ begunHmac.mode = .hmac := begunHmac_accum

theorem witness_HmacCommandsComputeHmac :
    (countUp 65).length < 65536 ∧ (∀ w ∈ someWrites, w.isWrite = true) ∧
      (someWrites.flatMap Instr.payload).length < 2 ^ 32 - 64 := by decide

theorem witness_ResultInHmacModeAnswersTheInnerDigest :
    begunHmac.phase = .accum ∧ begunHmac.mode = .hmac ∧ begunHmac.Absorbed (begunHmac.k.toList ++ []) ∧
      ([] : List Byte).length < 2 ^ 32 - 64 :=
  ⟨begunHmac_accum.1, begunHmac_accum.2, by rw [List.append_nil]; exact begunHmac_absorbed, by decide⟩

theorem witness_MisusedCommandsComplete :
    isMisuse (.write 0x61) State.reset.phase State.reset.mode = true ∧
      isMisuse .resultHmac begunPlain.phase begunPlain.mode = true := ⟨rfl, rfl⟩

theorem witness_MisuseForgetsAllData :
    isMisuse .resultHmac begunPlain.phase begunPlain.mode = true ∧ begunPlain.cnt ≠ (begunPlain.setCnt 5).cnt ∧
      begunPlain.phase = (begunPlain.setCnt 5).phase ∧ begunPlain.mode = (begunPlain.setCnt 5).mode ∧
      begunPlain.misuse = (begunPlain.setCnt 5).misuse ∧ begunPlain.rsp = (begunPlain.setCnt 5).rsp ∧
      begunPlain.cmd = (begunPlain.setCnt 5).cmd ∧ begunPlain.draws = (begunPlain.setCnt 5).draws :=
  ⟨rfl, by decide, rfl, rfl, rfl, rfl, rfl, rfl⟩

theorem witness_KeyAndInnerBuffersHaveFewWriters :
    isMisuse .init State.reset.phase State.reset.mode = false ∧ Instr.init ≠ .resultHmac ∧
      (∀ key, Instr.init ≠ .initHmac key) ∧
      isMisuse (.initHmac []) State.reset.phase State.reset.mode = false ∧ Instr.initHmac [] ≠ .resultHmac :=
  ⟨rfl, by decide, nofun, rfl, by decide⟩

theorem witness_OnlyResetClearsMisuseOrReachesUninit :
    step { State.reset with misuse := true } = .next { State.reset with misuse := true } ∧
      step State.reset = .next State.reset ∧ State.reset.phase = .uninit := ⟨rfl, rfl, rfl⟩

theorem witness_EveryStepKeepsTheLifeCycle :
    begunPlain.LifeCycle ∧ step begunPlain = .next begunPlain :=
  ⟨⟨fun h => Phase.noConfusion h, fun h => Phase.noConfusion h, fun _ => rfl, fun h => Phase.noConfusion h, fun _ => rfl,
    fun h => Phase.noConfusion h⟩, rfl⟩

theorem witness_EveryStepKeepsTheDataCoherent :
    begunHmac.Coherent ∧ begunPlain.Coherent ∧ step begunPlain = .next begunPlain :=
  ⟨fun _ => ⟨[], by rw [List.append_nil]; exact begunHmac_absorbed⟩, fun _ => ⟨[], begunPlain_absorbed⟩, rfl⟩

theorem witness_HostActionsKeepTheInvariants :
    begunPlain.LifeCycle ∧ begunPlain.Coherent ∧ ∃ dg t, begunPlain.readDigest = some (dg, t) :=
  ⟨witness_EveryStepKeepsTheLifeCycle.1, witness_EveryStepKeepsTheDataCoherent.2.1, _, _, rfl⟩

theorem witness_NoLegalAnswerDependsOnStaleData :
    begunPlain.SameMeaning begunStale ∧ isMisuse .result begunPlain.phase begunPlain.mode = false :=
  ⟨⟨rfl, rfl, fun _ => rfl, fun _ => rfl, fun _ => rfl, fun _ _ hi => absurd hi (Nat.not_lt_zero _),
    fun _ h => Mode.noConfusion h⟩, rfl⟩

theorem witness_StatusShowsTheFlags : begunPlain.cmd = [] := rfl

theorem witness_DigestViewIsTheAnswer :
    (Instr.result = .result ∨ Instr.result = .resultHmac) ∧ isMisuse .result begunPlain.phase begunPlain.mode = false ∧
      begunPlain.cmd = [] ∧
      isMisuse .resultHmac (midwayHmac iv [] 0 ipadOfKey).phase (midwayHmac iv [] 0 ipadOfKey).mode = false ∧
      (midwayHmac iv [] 0 ipadOfKey).cmd = [] := ⟨.inl rfl, rfl, rfl, rfl, rfl⟩

theorem witness_DigestReadHasNoSideEffect :
    State.reset.cmd = [] ∧ begunPlain.cmd = [] ∧ begunPlain.finalized.cmd = [] := ⟨rfl, rfl, rfl⟩

/-- RESULT in UNINIT stays there; RESULT_HMAC in PLAIN moves to FINAL. -/
theorem witness_DigestAfterMisuseIsDrawnAtEveryRead :
    isMisuse .result State.reset.phase State.reset.mode = true ∧ State.reset.cmd = [] ∧
      nextHolds (exec .result State.reset) (fun t => decide (t.phase ≠ .final)) = true ∧
      isMisuse .resultHmac begunPlain.phase begunPlain.mode = true ∧ begunPlain.cmd = [] ∧
      nextHolds (exec .resultHmac begunPlain) (fun t => decide (t.phase = .final)) = true :=
  ⟨rfl, rfl, by decide, rfl, rfl, by decide⟩

theorem witness_ResetSetsTheFlags :
    (State.reset = State.reset ∨ State.reset = begunPlain.applyReset) ∧
      (begunPlain.applyReset = State.reset ∨ begunPlain.applyReset = begunPlain.applyReset) := ⟨.inl rfl, .inr rfl⟩

theorem witness_ResetDataIsUnobservable :
    State.reset.phase = .uninit ∧ (State.reset.setCnt 5).phase = .uninit ∧
      State.reset.mode = (State.reset.setCnt 5).mode ∧ State.reset.misuse = (State.reset.setCnt 5).misuse ∧
      State.reset.rsp = (State.reset.setCnt 5).rsp ∧ State.reset.cmd = (State.reset.setCnt 5).cmd ∧
      State.reset.draws = (State.reset.setCnt 5).draws := ⟨rfl, rfl, rfl, rfl, rfl, rfl, rfl⟩

end Sys2Proof.Tests
end

section
/-!
PROOFS. Rotation moves every bit of a word cyclically (spec/00_scope.md R9); `be32` and `byte_k` are inverse (R10).
-/
namespace Sys2Proof.Machine

/-- `rol32` is the library's rotation: where R9's amount is 0 modulo 32, the part shifted right by 32 is zero. -/
theorem rol32_eq_rotateLeft (x : Word) (n : Nat) : rol32 x n = x.rotateLeft n := by
  rw [rol32, BitVec.rotateLeft_def]
  split
  case isTrue hzero => rw [hzero, BitVec.shiftLeft_zero, BitVec.ushiftRight_eq_zero (Nat.le_refl 32), BitVec.or_zero]
  case isFalse => rfl

theorem rol32_getLsbD_add_mod (x : Word) (n : Nat) {j : Nat} (hj : j < 32) :
    (rol32 x n).getLsbD ((j + n) % 32) = x.getLsbD j := by
  rw [rol32_eq_rotateLeft, BitVec.getLsbD_rotateLeft]
  by_cases hwrap : (j + n) % 32 < n % 32
  · have hsource : 32 - n % 32 + (j + n) % 32 = j := by omega
    rw [decide_eq_true hwrap, cond_true, hsource]
  · have hsource : (j + n) % 32 - n % 32 = j := by omega
    have hrange : (j + n) % 32 < 32 := Nat.mod_lt _ (by decide)
    rw [decide_eq_false hwrap, cond_false, decide_eq_true hrange, Bool.true_and, hsource]

theorem rol32_mul_width (x : Word) (n : Nat) : rol32 x (32 * n) = x :=
  if_pos (Nat.mul_mod_right 32 n)

/-- Settles O20: every bit moves cyclically, and a multiple of the width moves nothing. -/
theorem rotationMovesEveryBit : Obligations.RotationMovesEveryBit :=
  fun x n => ⟨fun _ => rol32_getLsbD_add_mod x n, rol32_mul_width x n⟩

/-- Neighbouring slices of the word join, byte after byte, to the slice that is the whole word. -/
theorem be32_byteOf (x : Word) : be32 (byteOf 0 x) (byteOf 1 x) (byteOf 2 x) (byteOf 3 x) = x := by
  have hjoin01 : byteOf 0 x ++ byteOf 1 x = x.extractLsb' 16 16 :=
    BitVec.extractLsb'_append_extractLsb'_eq_extractLsb' rfl
  have hjoin012 : x.extractLsb' 16 16 ++ byteOf 2 x = x.extractLsb' 8 24 :=
    BitVec.extractLsb'_append_extractLsb'_eq_extractLsb' rfl
  have hjoin0123 : x.extractLsb' 8 24 ++ byteOf 3 x = x.extractLsb' 0 32 :=
    BitVec.extractLsb'_append_extractLsb'_eq_extractLsb' rfl
  calc be32 (byteOf 0 x) (byteOf 1 x) (byteOf 2 x) (byteOf 3 x)
      = byteOf 0 x ++ byteOf 1 x ++ byteOf 2 x ++ byteOf 3 x := rfl
    _ = x.extractLsb' 0 32 := by rw [hjoin01, hjoin012, hjoin0123]
    _ = x := BitVec.extractLsb'_eq_self

section
variable (b0 b1 b2 b3 : Byte)

@[simp] theorem byteOf_zero_be32 : byteOf 0 (be32 b0 b1 b2 b3) = b0 :=
  calc (b0 ++ b1 ++ b2 ++ b3).extractLsb' 24 8
      = (b0 ++ b1 ++ b2).extractLsb' 16 8 := BitVec.extractLsb'_append_eq_of_le (by decide)
    _ = (b0 ++ b1).extractLsb' 8 8 := BitVec.extractLsb'_append_eq_of_le (by decide)
    _ = b0 := BitVec.extractLsb'_append_eq_left

@[simp] theorem byteOf_one_be32 : byteOf 1 (be32 b0 b1 b2 b3) = b1 :=
  calc (b0 ++ b1 ++ b2 ++ b3).extractLsb' 16 8
      = (b0 ++ b1 ++ b2).extractLsb' 8 8 := BitVec.extractLsb'_append_eq_of_le (by decide)
    _ = (b0 ++ b1).extractLsb' 0 8 := BitVec.extractLsb'_append_eq_of_le (by decide)
    _ = b1 := BitVec.extractLsb'_append_eq_right

@[simp] theorem byteOf_two_be32 : byteOf 2 (be32 b0 b1 b2 b3) = b2 :=
  calc (b0 ++ b1 ++ b2 ++ b3).extractLsb' 8 8
      = (b0 ++ b1 ++ b2).extractLsb' 0 8 := BitVec.extractLsb'_append_eq_of_le (by decide)
    _ = b2 := BitVec.extractLsb'_append_eq_right

@[simp] theorem byteOf_three_be32 : byteOf 3 (be32 b0 b1 b2 b3) = b3 :=
  BitVec.extractLsb'_append_eq_right

end

/-- Settles O21: a word is its four bytes joined, and each joined byte is read back. -/
theorem wordsAndBytesConvertBothWays : Obligations.WordsAndBytesConvertBothWays :=
  ⟨be32_byteOf, fun b0 b1 b2 b3 =>
    ⟨byteOf_zero_be32 b0 b1 b2 b3, byteOf_one_be32 b0 b1 b2 b3, byteOf_two_be32 b0 b1 b2 b3,
      byteOf_three_be32 b0 b1 b2 b3⟩⟩

end Sys2Proof.Machine
end

section
/-!
PROOFS. Every command as one equation where it is legal and one where it is a misuse (spec/60_exceptions.md R212, R213), and
what the two leave of the flags, `K`, `IH` and the streams. Proofs about all commands cite these.
-/
namespace Sys2Proof.Machine

/-- What a legal command does before it answers (40_plain_commands.md R120 to R127, 43_hmac_commands.md R190, R194). -/
def State.performed (s : State) (i : Instr) : State :=
  match i with
  | .init => s.initOps.begun .plain
  | .write d => s.writeBytes [d]
  | .writen p => s.writeBytes p
  | .result => s.finish.finalized
  | .initHmac key => ((s.loadKeyBlock key).xorKey ipadByte).feedKey.begun .hmac
  | .resultHmac => s.closeInner.runOuter.finalized

/-- What a legal command answers (30_encoding.md R97). -/
def State.answer (s : State) (i : Instr) : List Byte :=
  match i with
  | .init => []
  | .write _ => be16 1
  | .writen p => be16 p.length
  | .result => s.finish.digestBytes.toList
  | .initHmac _ => []
  | .resultHmac => s.closeInner.runOuter.digestBytes.toList

/-- What a misused command leaves (R199, R213). INIT and INIT_HMAC, which are never a misuse, fall under the last case. -/
def State.misused (s : State) (i : Instr) : State :=
  match i with
  | .result => s.takeMisuse.emitAny 20
  | .resultHmac => if s.phase = .accum then s.takeMisuse.finalized.emitAny 20 else s.takeMisuse.emitAny 20
  | _ => s.takeMisuse.emit (be16 i.payload.length)

theorem State.emit_nil (s : State) : s.emit [] = s := by rw [State.emit, List.append_nil]

/-! ### Legality (R212) -/

section
variable {phase : Phase} {mode : Mode}

theorem write_legal_iff {d : Byte} : isMisuse (.write d) phase mode = false ↔ phase = .accum := by simp [isMisuse]

theorem writen_legal_iff {p : List Byte} :
    isMisuse (.writen p) phase mode = false ↔ p = [] ∨ phase = .accum := by
  simp [isMisuse, or_iff_not_imp_left]

theorem result_legal_iff : isMisuse .result phase mode = false ↔ phase = .accum := by simp [isMisuse]

theorem resultHmac_legal_iff :
    isMisuse .resultHmac phase mode = false ↔ phase = .accum ∧ mode = .hmac := by simp [isMisuse]

/-- Every misuse stands outside ACCUM, except RESULT_HMAC. -/
theorem ne_accum_of_isMisuse {i : Instr} (h : isMisuse i phase mode = true) (hi : i ≠ .resultHmac) :
    phase ≠ .accum := by
  rintro rfl
  cases i with
  | resultHmac => exact hi rfl
  | _ => simp [isMisuse] at h

end

/-! ### The two equations -/

theorem exec_legal {i : Instr} {s : State} (h : isMisuse i s.phase s.mode = false) :
    exec i s = .next ((s.performed i).emit (s.answer i)) := by
  cases i with
  | init => rw [State.answer, State.emit_nil]; exact exec_init s
  | write d => exact exec_write_legal s d (write_legal_iff.1 h)
  | writen p =>
    rcases writen_legal_iff.1 h with rfl | ha
    · exact exec_writen_nil s
    · exact exec_writen_legal s p ha
  | result => exact exec_result_legal s (result_legal_iff.1 h)
  | initHmac key => rw [State.answer, State.emit_nil]; exact exec_initHmac s key
  | resultHmac =>
    obtain ⟨ha, hm⟩ := resultHmac_legal_iff.1 h
    exact exec_resultHmac_legal s ha hm

theorem exec_misused {i : Instr} {s : State} (h : isMisuse i s.phase s.mode = true) :
    exec i s = .next (s.misused i) := by
  have hne := ne_accum_of_isMisuse h
  cases i with
  | init => cases h
  | write d => exact exec_write_misuse s d (hne nofun)
  | writen p =>
    have hp : p.length ≠ 0 := by
      intro hp
      simp [isMisuse, hp] at h
    exact exec_writen_misuse s p hp (hne nofun)
  | result => exact exec_result_misuse s (hne nofun)
  | initHmac key => cases h
  | resultHmac =>
    by_cases ha : s.phase = .accum
    · have hm : s.mode ≠ .hmac := fun hm => by simp [isMisuse, ha, hm] at h
      rw [exec_resultHmac_plain s ha hm, State.misused, if_pos ha]
    · rw [exec_resultHmac_misuse s ha, State.misused, if_neg ha]

/-- A command that answers a next state was performed and answered, or was a misuse. -/
theorem exec_cases {i : Instr} {s t : State} (h : exec i s = .next t) :
    (isMisuse i s.phase s.mode = false ∧ t = (s.performed i).emit (s.answer i)) ∨
      (isMisuse i s.phase s.mode = true ∧ t = s.misused i) := by
  cases hm : isMisuse i s.phase s.mode with
  | false => exact .inl ⟨rfl, (Host.Outcome.next.inj ((exec_legal hm).symm.trans h)).symm⟩
  | true => exact .inr ⟨rfl, (Host.Outcome.next.inj ((exec_misused hm).symm.trans h)).symm⟩

/-! ### What a legal command leaves -/

section
variable (s : State) (i : Instr)

theorem State.performed_frame :
    (s.performed i).misuse = s.misuse ∧ (s.performed i).rsp = s.rsp ∧ (s.performed i).cmd = s.cmd := by
  cases i with
  | init => exact ⟨rfl, rfl, rfl⟩
  | write d =>
    have h := s.writeBytes_sameControl [d]
    exact ⟨h.misuse, h.rsp, h.cmd⟩
  | writen p =>
    have h := s.writeBytes_sameControl p
    exact ⟨h.misuse, h.rsp, h.cmd⟩
  | result =>
    have h := s.finish_sameControl
    simp [State.performed, h.misuse, h.rsp, h.cmd]
  | initHmac key =>
    obtain ⟨-, hmisuse, hrsp, hcmd⟩ := s.loadKeyBlock_frame key
    have h := ((s.loadKeyBlock key).xorKey ipadByte).feedKey_sameControl
    simp [State.performed, h.misuse, h.rsp, h.cmd, hmisuse, hrsp, hcmd]
  | resultHmac =>
    obtain ⟨-, -, -, -, hmisuse, hrsp, hcmd⟩ := s.closeInner_frame
    have h := s.closeInner.runOuter_sameControl
    simp [State.performed, h.misuse, h.rsp, h.cmd, hmisuse, hrsp, hcmd]

@[simp] theorem State.performed_misuse : (s.performed i).misuse = s.misuse :=
  let ⟨h, _, _⟩ := s.performed_frame i; h
@[simp] theorem State.performed_rsp : (s.performed i).rsp = s.rsp :=
  let ⟨_, h, _⟩ := s.performed_frame i; h
@[simp] theorem State.performed_cmd : (s.performed i).cmd = s.cmd :=
  let ⟨_, _, h⟩ := s.performed_frame i; h

theorem State.performed_phase_ne_uninit (h : s.phase ≠ .uninit) : (s.performed i).phase ≠ .uninit := by
  cases i with
  | init => exact nofun
  | write d => exact (s.writeBytes_sameControl [d]).phase.trans_ne h
  | writen p => exact (s.writeBytes_sameControl p).phase.trans_ne h
  | result => exact nofun
  | initHmac key => exact nofun
  | resultHmac => exact nofun

/-- `K` has two writers, INIT_HMAC and RESULT_HMAC (10_state.md R25). -/
theorem State.performed_k (hi : i ≠ .resultHmac) (hkey : ∀ key, i ≠ .initHmac key) : (s.performed i).k = s.k := by
  cases i with
  | init => rfl
  | write d => exact (s.writeBytes_sameControl [d]).k
  | writen p => exact (s.writeBytes_sameControl p).k
  | result => rw [State.performed, State.finalized_k, s.finish_sameControl.k]
  | initHmac key => exact absurd rfl (hkey key)
  | resultHmac => exact absurd rfl hi

/-- `IH` has one writer, RESULT_HMAC (10_state.md R26). -/
theorem State.performed_ih (hi : i ≠ .resultHmac) : (s.performed i).ih = s.ih := by
  cases i with
  | init => rfl
  | write d => exact (s.writeBytes_sameControl [d]).ih
  | writen p => exact (s.writeBytes_sameControl p).ih
  | result => rw [State.performed, State.finalized_ih, s.finish_sameControl.ih]
  | initHmac key =>
    obtain ⟨hih, -⟩ := s.loadKeyBlock_frame key
    rw [State.performed, State.begun_ih, (State.feedKey_sameControl _).ih, State.xorKey_ih, hih]
  | resultHmac => exact absurd rfl hi

/-! ### What a misused command leaves -/

theorem State.misused_frame :
    (s.misused i).misuse = true ∧ (s.misused i).hAny = true ∧ (s.misused i).mode = s.mode ∧
      (s.misused i).cmd = s.cmd := by
  cases i with
  | resultHmac => rw [State.misused]; split <;> exact ⟨rfl, rfl, rfl, rfl⟩
  | _ => exact ⟨rfl, rfl, rfl, rfl⟩

@[simp] theorem State.misused_misuse : (s.misused i).misuse = true :=
  let ⟨h, _, _, _⟩ := s.misused_frame i; h
@[simp] theorem State.misused_hAny : (s.misused i).hAny = true :=
  let ⟨_, h, _, _⟩ := s.misused_frame i; h
@[simp] theorem State.misused_mode : (s.misused i).mode = s.mode :=
  let ⟨_, _, h, _⟩ := s.misused_frame i; h
@[simp] theorem State.misused_cmd : (s.misused i).cmd = s.cmd :=
  let ⟨_, _, _, h⟩ := s.misused_frame i; h

end

/-- A misuse leaves UNINIT as UNINIT and every other phase as FINAL: in ACCUM only RESULT_HMAC is one (R199, R214). -/
theorem State.misused_phase {s : State} {i : Instr} (h : isMisuse i s.phase s.mode = true) :
    (s.misused i).phase = if s.phase = .uninit then .uninit else .final := by
  have hkept : s.phase ≠ .accum → s.phase = if s.phase = .uninit then .uninit else .final := by
    cases s.phase with
    | uninit => exact fun _ => rfl
    | accum => exact absurd rfl
    | final => exact fun _ => rfl
  have hne := ne_accum_of_isMisuse h
  cases i with
  | init => cases h
  | write d => exact hkept (hne nofun)
  | writen p => exact hkept (hne nofun)
  | result => exact hkept (hne nofun)
  | initHmac key => cases h
  | resultHmac =>
    by_cases ha : s.phase = .accum
    · rw [State.misused, if_pos ha, ha]; rfl
    · rw [State.misused, if_neg ha]; exact hkept ha

theorem State.misused_phase_ne_accum {s : State} {i : Instr} (h : isMisuse i s.phase s.mode = true) :
    (s.misused i).phase ≠ .accum := by
  rw [State.misused_phase h]
  split <;> exact nofun

theorem State.misused_phase_eq_uninit_iff {s : State} {i : Instr} (h : isMisuse i s.phase s.mode = true) :
    (s.misused i).phase = .uninit ↔ s.phase = .uninit := by
  rw [State.misused_phase h]
  split <;> simp [*]

/-- Settles O34: `performed_k` and `performed_ih` name the writers. -/
theorem keyAndInnerBuffersHaveFewWriters : Obligations.KeyAndInnerBuffersHaveFewWriters :=
  fun i s hlegal => ⟨_, exec_legal hlegal, s.performed_k i, s.performed_ih i⟩

end Sys2Proof.Machine
end

section
/-!
PROOFS. The two invariants of Safety.lean: the life cycle (spec/10_state.md R27, R28, R35, 42_padding_digest.md R174) and the
coherent data path (10_state.md R22, R24, 43_hmac_commands.md R190), at reset, under every step and under the host's actions.
-/
namespace Sys2Proof.Machine

/-- The state with other streams and another draw counter: what no invariant speaks of. -/
def State.withStreams (s : State) (rsp cmd : List Byte) (draws : Nat) : State :=
  { s with rsp := rsp, cmd := cmd, draws := draws }

theorem State.emit_eq_withStreams (s : State) (bytes : List Byte) :
    s.emit bytes = s.withStreams (s.rsp ++ bytes) s.cmd s.draws := rfl

theorem State.consumed_eq_withStreams (s : State) (rest : List Byte) :
    s.consumed rest = s.withStreams s.rsp rest s.draws := rfl

theorem State.hostSend_eq_withStreams (s : State) (bytes : List Byte) :
    s.hostSend bytes = s.withStreams s.rsp (s.cmd ++ bytes) s.draws := rfl

theorem State.hostTake_eq_withStreams (s : State) (n : Nat) :
    (s.hostTake n).2 = s.withStreams (s.rsp.drop n) s.cmd s.draws := rfl

/-- A DIGEST read moves nothing but the draw counter (10_state.md R31). -/
theorem State.readDigest_eq_withStreams {s t : State} {dg : Vector Byte 20} (h : s.readDigest = some (dg, t)) :
    t = s.withStreams s.rsp s.cmd t.draws := by
  unfold State.readDigest at h
  split at h
  · split at h
    · obtain ⟨-, rfl⟩ := Prod.mk.inj (Option.some.inj h)
      exact s.readChain_frame
    · obtain ⟨-, rfl⟩ := Prod.mk.inj (Option.some.inj h)
      rfl
  · cases h

/-- What the streams do not matter to, legal commands keep and misuses keep, every step keeps. -/
theorem step_keeps {P : State → Prop}
    (hstreams : ∀ s rsp cmd draws, P s → P (s.withStreams rsp cmd draws))
    (hperformed : ∀ i s, isMisuse i s.phase s.mode = false → P s → P (s.performed i))
    (hmisused : ∀ i s, isMisuse i s.phase s.mode = true → P s → P (s.misused i))
    {s t : State} (hs : P s) (hstep : step s = .next t) : P t := by
  rcases step_cases hstep with rfl | ⟨i, rest, -, hexec⟩
  · exact hs
  · have hconsumed : P (s.consumed rest) := s.consumed_eq_withStreams rest ▸ hstreams s _ _ _ hs
    rcases exec_cases hexec with ⟨hlegal, rfl⟩ | ⟨hmis, rfl⟩
    · rw [State.emit_eq_withStreams]
      exact hstreams _ _ _ _ (hperformed i _ hlegal hconsumed)
    · exact hmisused i _ hmis hconsumed

/-- Settles O35: a set misuse bit, and a phase other than UNINIT, are each kept by every step. -/
theorem onlyResetClearsMisuseOrReachesUninit : Obligations.OnlyResetClearsMisuseOrReachesUninit := by
  refine fun s t hstep => ⟨fun hset => ?_, fun huninit => ?_⟩
  · refine step_keeps (P := fun s => s.misuse = true) (fun _ _ _ _ h => h) ?_ ?_ hset hstep
    · exact fun i s _ h => (s.performed_misuse i).trans h
    · exact fun i s _ _ => s.misused_misuse i
  · by_contra hne
    refine step_keeps (P := fun s => s.phase ≠ .uninit) (fun _ _ _ _ h => h) ?_ ?_ hne hstep huninit
    · exact fun i s _ h => s.performed_phase_ne_uninit i h
    · exact fun i s hmis h => mt (State.misused_phase_eq_uninit_iff hmis).1 h

/-! ### The life cycle -/

theorem State.LifeCycle.withStreams {s : State} (hs : s.LifeCycle) (rsp cmd : List Byte) (draws : Nat) :
    (s.withStreams rsp cmd draws).LifeCycle :=
  ⟨hs.uninit_plain, hs.uninit_any, hs.accum_known, hs.final_any, hs.accum_offset, hs.final_offset⟩

theorem State.lifeCycle_of_accum {s : State} (hphase : s.phase = .accum) (hknown : s.hAny = false)
    (hoff : s.off.val = s.cnt.toNat % 64) : s.LifeCycle := by
  constructor <;> simp [hphase, hknown, hoff]

theorem State.lifeCycle_of_final {s : State} (hphase : s.phase = .final) (hknown : s.hAny = false)
    (hoff : s.off = 0) : s.LifeCycle := by
  constructor <;> simp [hphase, hknown, hoff]

/-- While `H` is `any`, the invariant says nothing of `off` and `cnt`. -/
theorem State.lifeCycle_of_any {s : State} (hany : s.hAny = true) (hne : s.phase ≠ .accum)
    (hplain : s.phase = .uninit → s.mode = .plain) (hmisuse : s.phase = .final → s.misuse = true) : s.LifeCycle :=
  ⟨hplain, fun _ => hany, fun ha => absurd ha hne, fun hf _ => hmisuse hf, fun ha => absurd ha hne,
    fun _ hknown => absurd (hany.symm.trans hknown) nofun⟩

theorem State.afterReset_lifeCycle (start : Nat) : (State.afterReset start).LifeCycle :=
  State.lifeCycle_of_any rfl nofun (fun _ => rfl) nofun

/-- Written bytes advance the offset and the counter alike; the counter wraps at a multiple of 64. -/
theorem State.writeBytes_off_eq_cnt_mod {s : State} (h : s.off.val = s.cnt.toNat % 64) (p : List Byte) :
    (s.writeBytes p).off.val = (s.writeBytes p).cnt.toNat % 64 := by
  rw [s.writeBytes_eq, State.setCnt_off, State.setCnt_cnt, s.appendBytes_off, h, BitVec.toNat_add, BitVec.toNat_ofNat]
  omega

theorem State.LifeCycle.writeBytes {s : State} (hs : s.LifeCycle) (ha : s.phase = .accum) (p : List Byte) :
    (s.writeBytes p).LifeCycle := by
  refine State.lifeCycle_of_accum ((s.writeBytes_sameControl p).phase.trans ha) ?_
    (State.writeBytes_off_eq_cnt_mod (hs.accum_offset ha) p)
  rw [s.writeBytes_hAny, hs.accum_known ha, ite_self]

theorem State.LifeCycle.performed {s : State} (hs : s.LifeCycle) {i : Instr}
    (hlegal : isMisuse i s.phase s.mode = false) : (s.performed i).LifeCycle := by
  cases i with
  | init => exact State.lifeCycle_of_accum rfl rfl rfl
  | write d => exact hs.writeBytes (write_legal_iff.1 hlegal) [d]
  | writen p =>
    rcases writen_legal_iff.1 hlegal with rfl | ha
    · exact hs
    · exact hs.writeBytes ha p
  | result =>
    rw [State.performed]
    exact State.lifeCycle_of_final (by simp) (by simp) (by simp [State.finish_off])
  | initHmac key =>
    obtain ⟨-, hoff, hcnt⟩ := ((s.loadKeyBlock key).xorKey ipadByte).feedKey_data
    rw [State.performed]
    exact State.lifeCycle_of_accum (by simp) (by simp [State.feedKey_hAny]) (by simp [hoff, hcnt])
  | resultHmac =>
    rw [State.performed]
    exact State.lifeCycle_of_final (by simp) (by simp [State.runOuter_hAny]) (by simp [State.runOuter_off])

theorem State.LifeCycle.misused {s : State} (hs : s.LifeCycle) {i : Instr}
    (hmis : isMisuse i s.phase s.mode = true) : (s.misused i).LifeCycle := by
  refine State.lifeCycle_of_any (s.misused_hAny i) (State.misused_phase_ne_accum hmis) (fun huninit => ?_)
    (fun _ => s.misused_misuse i)
  rw [s.misused_mode i]
  exact hs.uninit_plain ((State.misused_phase_eq_uninit_iff hmis).1 huninit)

/-- Settles O36: legal commands and misuses each keep the invariant, and the streams do not enter it. -/
theorem everyStepKeepsTheLifeCycle : Obligations.EveryStepKeepsTheLifeCycle :=
  fun _ _ => step_keeps (fun _ rsp cmd draws hs => hs.withStreams rsp cmd draws)
    (fun _ _ hlegal hs => hs.performed hlegal) (fun _ _ hmis hs => hs.misused hmis)

/-! ### The coherent data path -/

/-- What every message hashed in the mode of `s` begins with: in mode HMAC the 64 bytes of `K` (R190). -/
def State.modeLead (s : State) : List Byte :=
  match s.mode with
  | .plain => []
  | .hmac => s.k.toList

theorem State.coherent_iff (s : State) :
    s.Coherent ↔ (s.phase = .accum → ∃ m, s.Absorbed (s.modeLead ++ m)) := by
  unfold State.Coherent State.modeLead
  cases s.mode <;> rfl

theorem State.coherent_of_ne_accum {s : State} (hne : s.phase ≠ .accum) : s.Coherent := fun ha => absurd ha hne

theorem State.coherent_of_absorbed {s : State} {m : List Byte} (h : s.Absorbed (s.modeLead ++ m)) : s.Coherent :=
  s.coherent_iff.2 fun _ => ⟨m, h⟩

theorem State.Coherent.withStreams {s : State} (hs : s.Coherent) (rsp cmd : List Byte) (draws : Nat) :
    (s.withStreams rsp cmd draws).Coherent := by
  refine (State.coherent_iff _).2 fun ha => ?_
  obtain ⟨m, hm⟩ := s.coherent_iff.1 hs ha
  exact ⟨m, hm.congr rfl rfl rfl rfl⟩

theorem State.Coherent.writeBytes {s : State} (hs : s.Coherent) (p : List Byte) : (s.writeBytes p).Coherent := by
  have hcontrol := s.writeBytes_sameControl p
  have hlead : (s.writeBytes p).modeLead = s.modeLead := by
    rw [State.modeLead, hcontrol.mode, hcontrol.k]; rfl
  refine (State.coherent_iff _).2 fun ha => ?_
  obtain ⟨m, hm⟩ := s.coherent_iff.1 hs (hcontrol.phase.symm.trans ha)
  refine ⟨m ++ p, ?_⟩
  rw [hlead, ← List.append_assoc]
  exact hm.writeBytes p

theorem State.Coherent.performed {s : State} (hs : s.Coherent) (i : Instr) : (s.performed i).Coherent := by
  cases i with
  | init => exact State.coherent_of_absorbed (m := []) (s.initOps_absorbed.congr rfl rfl rfl rfl)
  | write d => exact hs.writeBytes [d]
  | writen p => exact hs.writeBytes p
  | result =>
    rw [State.coherent_iff, State.performed, State.finalized_phase]
    exact nofun
  | initHmac key =>
    refine State.coherent_of_absorbed (m := []) ?_
    have hk := ((s.loadKeyBlock key).xorKey ipadByte).feedKey_sameControl.k
    rw [State.performed, State.modeLead, State.begun_mode, State.begun_k, hk, List.append_nil]
    exact (State.feedKey_absorbed _).congr (State.begun_h _ _) (State.begun_b _ _) (State.begun_off _ _)
      (State.begun_cnt _ _)
  | resultHmac =>
    rw [State.coherent_iff, State.performed, State.finalized_phase]
    exact nofun

/-- Settles O37: a misuse never ends in ACCUM, so only the legal commands have a message to show. -/
theorem everyStepKeepsTheDataCoherent : Obligations.EveryStepKeepsTheDataCoherent :=
  fun _ _ => step_keeps (fun _ rsp cmd draws hs => hs.withStreams rsp cmd draws)
    (fun i _ _ hs => hs.performed i)
    (fun _ _ hmis _ => State.coherent_of_ne_accum (State.misused_phase_ne_accum hmis))

/-! ### Reset and the host's actions -/

theorem State.afterReset_coherent (start : Nat) : (State.afterReset start).Coherent :=
  State.coherent_of_ne_accum nofun

/-- Settles O38: in UNINIT neither invariant asks anything of the drawn data. -/
theorem invariantsHoldAtReset : Obligations.InvariantsHoldAtReset :=
  ⟨State.afterReset_lifeCycle 0, State.afterReset_coherent 0⟩

/-- Settles O39: reset aside, the host moves the streams and the draw counter only. -/
theorem hostActionsKeepTheInvariants : Obligations.HostActionsKeepTheInvariants := by
  intro s bytes n hlife hcoherent
  have hstreams (rsp cmd : List Byte) (draws : Nat) :
      (s.withStreams rsp cmd draws).LifeCycle ∧ (s.withStreams rsp cmd draws).Coherent :=
    ⟨hlife.withStreams rsp cmd draws, hcoherent.withStreams rsp cmd draws⟩
  refine ⟨?_, ?_, ⟨State.afterReset_lifeCycle _, State.afterReset_coherent _⟩, fun dg t hread => ?_⟩
  · rw [State.hostSend_eq_withStreams]; exact hstreams _ _ _
  · rw [State.hostTake_eq_withStreams]; exact hstreams _ _ _
  · rw [State.readDigest_eq_withStreams hread]; exact hstreams _ _ _

end Sys2Proof.Machine
end

section
/-!
PROOFS. Two runs side by side: states that mean the same (spec/10_state.md R36, 93_implementation_defined.md U3) are taken by
every command to states that mean the same, and answer the same bytes where the command is legal.
-/
namespace Sys2Proof.Machine

theorem State.SameMeaning.emit {s t : State} (h : s.SameMeaning t) (p q : List Byte) :
    (s.emit p).SameMeaning (t.emit q) :=
  ⟨h.phase, h.mode, h.chain, h.offset, h.count, h.buffer, h.key⟩

theorem State.SameData.sameMeaning {s t : State} (h : s.SameData t) (hphase : s.phase = t.phase)
    (hmode : s.mode = t.mode) (hkey : s.mode = .hmac → s.k = t.k) : s.SameMeaning t :=
  ⟨hphase, hmode, fun _ => h.chain, fun _ => h.offset, fun _ => h.count, fun _ => h.buffer, fun _ => hkey⟩

theorem State.SameData.begun {s t : State} (h : s.SameData t) (m : Mode) (hkey : m = .hmac → s.k = t.k) :
    (s.begun m).SameMeaning (t.begun m) :=
  ⟨rfl, rfl, fun _ => h.chain, fun _ => h.offset, fun _ => h.count, fun _ => h.buffer, fun _ => hkey⟩

/-- Outside ACCUM no data element means anything to a later command. -/
theorem State.sameMeaning_of_ne_accum {s t : State} (hphase : s.phase = t.phase) (hmode : s.mode = t.mode)
    (hne : s.phase ≠ .accum) : s.SameMeaning t := by
  constructor <;> simp [hphase, hmode, hphase ▸ hne]

theorem State.finalized_sameMeaning {s t : State} (hmode : s.mode = t.mode) : s.finalized.SameMeaning t.finalized :=
  State.sameMeaning_of_ne_accum rfl hmode nofun

theorem State.SameMeaning.writeBytes {s t : State} (h : s.SameMeaning t) (p : List Byte) :
    (s.writeBytes p).SameMeaning (t.writeBytes p) := by
  have hs := s.writeBytes_sameControl p
  have ht := t.writeBytes_sameControl p
  have hphase : (s.writeBytes p).phase = (t.writeBytes p).phase := by rw [hs.phase, ht.phase, h.phase]
  have hmode : (s.writeBytes p).mode = (t.writeBytes p).mode := by rw [hs.mode, ht.mode, h.mode]
  by_cases ha : s.phase = .accum
  · refine ((h.sameData ha).writeBytes p).sameMeaning hphase hmode ?_
    rw [hs.mode, hs.k, ht.k]
    exact h.key ha
  · exact State.sameMeaning_of_ne_accum hphase hmode (hs.phase.trans_ne ha)

/-- INIT and INIT_HMAC write every element that means something, and a result leaves ACCUM. -/
theorem State.SameMeaning.performed {s t : State} (h : s.SameMeaning t) (i : Instr) :
    (s.performed i).SameMeaning (t.performed i) := by
  cases i with
  | init =>
    exact (State.SameData.initOps s t).begun .plain nofun
  | write d => exact h.writeBytes [d]
  | writen p => exact h.writeBytes p
  | result =>
    refine State.finalized_sameMeaning ?_
    rw [s.finish_sameControl.mode, t.finish_sameControl.mode, h.mode]
  | initHmac key =>
    have hk : ((s.loadKeyBlock key).xorKey ipadByte).k = ((t.loadKeyBlock key).xorKey ipadByte).k :=
      congrArg (xorBlock ipadByte) (State.loadKeyBlock_k_eq s t key)
    refine (State.SameData.feedKey hk).begun .hmac fun _ => ?_
    rw [(State.feedKey_sameControl _).k, hk, (State.feedKey_sameControl _).k]
  | resultHmac =>
    obtain ⟨-, -, -, hs, -⟩ := s.closeInner_frame
    obtain ⟨-, -, -, ht, -⟩ := t.closeInner_frame
    refine State.finalized_sameMeaning ?_
    rw [(State.runOuter_sameControl _).mode, (State.runOuter_sameControl _).mode, hs, ht, h.mode]

theorem State.SameMeaning.finish_digestBytes {s t : State} (h : s.SameMeaning t) (ha : s.phase = .accum) :
    s.finish.digestBytes = t.finish.digestBytes :=
  congrArg ser (h.sameData ha).finish.chain

theorem State.SameMeaning.answer {s t : State} (h : s.SameMeaning t) {i : Instr}
    (hlegal : isMisuse i s.phase s.mode = false) : s.answer i = t.answer i := by
  cases i with
  | init => rfl
  | write d => rfl
  | writen p => rfl
  | result => exact congrArg Vector.toList (h.finish_digestBytes (result_legal_iff.1 hlegal))
  | initHmac key => rfl
  | resultHmac =>
    obtain ⟨ha, hm⟩ := resultHmac_legal_iff.1 hlegal
    obtain ⟨hsk, hsih, -⟩ := s.closeInner_frame
    obtain ⟨htk, htih, -⟩ := t.closeInner_frame
    rw [State.answer, State.answer, State.runOuter_digest, State.runOuter_digest, hsk, htk, hsih, htih, h.key ha hm,
      h.finish_digestBytes ha]

theorem State.SameMeaning.isMisuse_eq {s t : State} (h : s.SameMeaning t) (i : Instr) :
    isMisuse i s.phase s.mode = isMisuse i t.phase t.mode := by rw [h.phase, h.mode]

theorem State.SameMeaning.misused {s t : State} (h : s.SameMeaning t) {i : Instr}
    (hmis : isMisuse i s.phase s.mode = true) : (s.misused i).SameMeaning (t.misused i) := by
  refine State.sameMeaning_of_ne_accum ?_ ?_ (State.misused_phase_ne_accum hmis)
  · rw [State.misused_phase hmis, State.misused_phase (h.isMisuse_eq i ▸ hmis), h.phase]
  · rw [s.misused_mode i, t.misused_mode i, h.mode]

/-- Settles O40: both runs take the same branch; the legal one by `SameMeaning.performed` and `SameMeaning.answer`. -/
theorem noLegalAnswerDependsOnStaleData : Obligations.NoLegalAnswerDependsOnStaleData := by
  intro i s t h
  have ht := h.isMisuse_eq i
  cases hmis : isMisuse i s.phase s.mode with
  | true =>
    exact ⟨_, _, exec_misused hmis, exec_misused (ht ▸ hmis), h.misused hmis, nofun⟩
  | false =>
    refine ⟨_, _, exec_legal hmis, exec_legal (ht ▸ hmis), (h.performed i).emit _ _, fun _ => ⟨s.answer i, ?_, ?_⟩⟩
    · rw [State.emit_rsp, s.performed_rsp i]
    · rw [State.emit_rsp, t.performed_rsp i, h.answer hmis]

/-- A misused command answers the draws that the counter numbers, whatever the data elements hold. -/
theorem State.misused_rsp_congr {s t : State} (hphase : s.phase = t.phase) (hrsp : s.rsp = t.rsp)
    (hdraws : s.draws = t.draws) (i : Instr) : (s.misused i).rsp = (t.misused i).rsp := by
  have hany : (s.takeMisuse.emitAny 20).rsp = (t.takeMisuse.emitAny 20).rsp := by simp [hrsp, hdraws]
  have hcount (n : Nat) : (s.takeMisuse.emit (be16 n)).rsp = (t.takeMisuse.emit (be16 n)).rsp := by simp [hrsp]
  cases i with
  | init => exact hcount _
  | write d => exact hcount _
  | writen p => exact hcount _
  | result => exact hany
  | initHmac key => exact hcount _
  | resultHmac =>
    rw [State.misused, State.misused, ← hphase]
    split
    · exact hany
    · exact hany

/-- Settles O46: in UNINIT the data elements mean nothing, so O40's argument applies, and a misuse answers by the counter. -/
theorem resetDataIsUnobservable : Obligations.ResetDataIsUnobservable := by
  intro i s t hs hti hmode hmisuse hrsp hcmd hdraws
  have hphase : s.phase = t.phase := hs.trans hti.symm
  have h : s.SameMeaning t := State.sameMeaning_of_ne_accum hphase hmode (by rw [hs]; exact nofun)
  have ht := h.isMisuse_eq i
  cases hmis : isMisuse i s.phase s.mode with
  | true =>
    refine ⟨_, _, exec_misused hmis, exec_misused (ht ▸ hmis), h.misused hmis, ?_,
      State.misused_rsp_congr hphase hrsp hdraws i, ?_⟩
    · rw [s.misused_misuse i, t.misused_misuse i]
    · rw [s.misused_cmd i, t.misused_cmd i, hcmd]
  | false =>
    refine ⟨_, _, exec_legal hmis, exec_legal (ht ▸ hmis), (h.performed i).emit _ _, ?_, ?_, ?_⟩
    · simp [hmisuse]
    · simp [hrsp, h.answer hmis]
    · simp [hcmd]

end Sys2Proof.Machine
end

section
/-!
PROOFS. The views STATUS and DIGEST, the two streams, and the flags after reset (spec/10_state.md R30 to R33, R42,
70_reset_and_hazards.md R240, R241).
-/
namespace Sys2Proof.Machine

/-! ### STATUS (R30) -/

theorem State.readStatus_of_cmd_nil {s : State} (h : s.cmd = []) : s.readStatus = some s.status := by
  rw [State.readStatus, h]; rfl

theorem State.status_toNat (s : State) :
    s.status.toNat = (match s.phase with | .uninit => 0 | .accum => 1 | .final => 2)
      + (match s.mode with | .plain => 0 | .hmac => 4) + (if s.misuse = true then 8 else 0) := by
  unfold State.status
  cases s.phase <;> cases s.mode <;> cases s.misuse <;> rfl

/-- Settles O41: the view's fields do not overlap, so their codes add up. -/
theorem statusShowsTheFlags : Obligations.StatusShowsTheFlags :=
  fun s hcmd => ⟨_, State.readStatus_of_cmd_nil hcmd, s.status_toNat⟩

/-! ### DIGEST (R31) -/

theorem State.readDigest_of_final {s : State} (hcmd : s.cmd = []) (hphase : s.phase = .final) :
    s.readDigest = some (ser s.readChain.1, s.readChain.2) := by
  rw [State.readDigest, hcmd, if_pos hphase]; rfl

theorem State.readDigest_of_ne_final {s : State} (hcmd : s.cmd = []) (hphase : s.phase ≠ .final) :
    s.readDigest = some (Config.freeBytes 20 s.draws, { s with draws := s.draws + 20 }) := by
  rw [State.readDigest, if_neg hphase, hcmd]; rfl

/-- With a written `H`, DIGEST in FINAL is `SER(H)` and the read moves nothing. -/
theorem State.readDigest_of_final_known {s : State} (hcmd : s.cmd = []) (hphase : s.phase = .final)
    (hknown : s.hAny = false) : s.readDigest = some (ser s.h, s) := by
  rw [State.readDigest_of_final hcmd hphase, s.readChain_known hknown]

/-- Settles O43: a read is answered in FINAL and outside it, and every answered read is `withStreams`. -/
theorem digestReadHasNoSideEffect : Obligations.DigestReadHasNoSideEffect := by
  intro s hcmd
  have hanswered : ∃ dg t, s.readDigest = some (dg, t) := by
    by_cases hphase : s.phase = .final
    · exact ⟨_, _, State.readDigest_of_final hcmd hphase⟩
    · exact ⟨_, _, State.readDigest_of_ne_final hcmd hphase⟩
  obtain ⟨dg, t, hread⟩ := hanswered
  exact ⟨dg, t, hread, State.readDigest_eq_withStreams hread⟩

/-- A legal result answers `SER(H)` of the state it leaves, in FINAL with a written `H` (R126, R194). -/
theorem State.performed_result (s : State) {i : Instr} (hi : i = .result ∨ i = .resultHmac) :
    (s.performed i).phase = .final ∧ (s.performed i).hAny = false ∧ s.answer i = (ser (s.performed i).h).toList := by
  rcases hi with rfl | rfl
  · rw [State.performed, State.answer, State.digestBytes]; simp
  · rw [State.performed, State.answer, State.digestBytes]; simp [State.runOuter_hAny]

/-- Settles O42: the state a legal result leaves reads as its answer, whatever is emitted after it. -/
theorem digestViewIsTheAnswer : Obligations.DigestViewIsTheAnswer := by
  intro i s hi hlegal hcmd
  obtain ⟨hphase, hknown, hanswer⟩ := s.performed_result hi
  have hempty : (s.performed i).cmd = [] := (s.performed_cmd i).trans hcmd
  have hread (bytes : List Byte) : ((s.performed i).emit bytes).readDigest =
      some (ser (s.performed i).h, (s.performed i).emit bytes) :=
    State.readDigest_of_final_known hempty hphase hknown
  refine ⟨_, _, _, exec_legal hlegal, hread _, ?_, exec_writen_nil _, ?_⟩
  · rw [State.emit_rsp, s.performed_rsp i, hanswer]
  · rw [State.emit_emit]; exact hread _

/-! ### Streams and reset -/

/-- Settles O44: the bytes taken and the bytes left are `take` and `drop` of RSP. -/
theorem streamsAreFirstInFirstOut : Obligations.StreamsAreFirstInFirstOut :=
  fun s n _ => ⟨List.take_append_drop n s.rsp, List.length_take, rfl, rfl⟩

/-- With no byte in CMD the engine waits (30_encoding.md R95). -/
theorem step_of_cmd_nil {s : State} (h : s.cmd = []) : step s = .next s := by
  rw [step, h]; rfl

/-- Settles O45: both resets are `State.afterReset`, from some draw number on. -/
theorem resetSetsTheFlags : Obligations.ResetSetsTheFlags := by
  intro s t ht
  obtain ⟨start, rfl⟩ : ∃ start, t = State.afterReset start := by
    rcases ht with rfl | rfl
    · exact ⟨0, rfl⟩
    · exact ⟨s.draws, rfl⟩
  have hstatus : (State.afterReset start).status = 0x00 :=
    BitVec.eq_of_toNat_eq (State.afterReset start).status_toNat
  exact ⟨rfl, rfl, rfl, rfl, rfl, (State.readStatus_of_cmd_nil rfl).trans (congrArg some hstatus), step_of_cmd_nil rfl⟩

end Sys2Proof.Machine
end

section
/-!
PROOFS. The framing as one opcode byte and its operands (spec/30_encoding.md R91 to R96): the decoder and the encoder each
split that way once, and the split facts joined: decoding an encoded command, and what a decoded, held or refused stream holds.
-/
namespace Sys2Proof

/-- What `decode` does with the bytes after an opcode byte (R91, R93). -/
def Opcode.decodeOperands (o : Opcode) (bytes : List Byte) : Decoded :=
  match o with
  | .init => .command .init bytes
  | .write => decodeData .write bytes
  | .writen => decodePayload .writen bytes
  | .result => .command .result bytes
  | .initHmac => decodePayload .initHmac bytes
  | .resultHmac => .command .resultHmac bytes

/-- The opcode of a command (R93). -/
def Instr.opcode : Instr → Opcode
  | .init => .init
  | .write _ => .write
  | .writen _ => .writen
  | .result => .result
  | .initHmac _ => .initHmac
  | .resultHmac => .resultHmac

/-- The bytes of a command after its opcode byte (R91). -/
def Instr.operands : Instr → List Byte
  | .init => []
  | .write d => [d]
  | .writen p => be16 p.length ++ p
  | .result => []
  | .initHmac key => be16 key.length ++ key
  | .resultHmac => []

theorem encode_eq (i : Instr) : encode i = i.opcode.toByte :: i.operands := by cases i <;> rfl

theorem decode_toByte_cons (o : Opcode) (bytes : List Byte) :
    decode (o.toByte :: bytes) = o.decodeOperands bytes := by cases o <;> rfl

theorem decode_cons_of_reserved {op : Byte} (h : 6 ≤ op.toNat) (bytes : List Byte) :
    decode (op :: bytes) = .reserved op := by
  rw [decode, (Opcode.ofByte_eq_none_iff op).2 h]

/-- The first byte of a stream is reserved or one of the six opcodes (R93, R94). -/
theorem reserved_or_toByte (op : Byte) : 6 ≤ op.toNat ∨ ∃ o : Opcode, op = o.toByte := by
  cases h : Opcode.ofByte op with
  | none => exact .inl ((Opcode.ofByte_eq_none_iff op).1 h)
  | some o => exact .inr ⟨o, Opcode.eq_toByte_of_ofByte h⟩

theorem payloadFits_iff (p : List Byte) : payloadFits p = true ↔ p.length < 65536 := decide_eq_true_iff

/-! ### Each format's operands -/

theorem decodeOperands_operands {i : Instr} (h : i.wellFormed = true) (rest : List Byte) :
    i.opcode.decodeOperands (i.operands ++ rest) = .command i rest := by
  cases i with
  | init => rfl
  | write d => rfl
  | writen p => exact decodePayload_be16 .writen p rest ((payloadFits_iff p).1 h)
  | result => rfl
  | initHmac key => exact decodePayload_be16 .initHmac key rest ((payloadFits_iff key).1 h)
  | resultHmac => rfl

/-- Operands with bytes missing are held (R95). -/
theorem decodeOperands_take {i : Instr} (h : i.wellFormed = true) {n : Nat} (hn : n < i.operands.length) :
    i.opcode.decodeOperands (i.operands.take n) = .held := by
  cases i with
  | init => cases hn
  | write d =>
    obtain rfl : n = 0 := Nat.lt_one_iff.1 hn
    rfl
  | writen p =>
    rw [Instr.operands, List.length_append, Laws.be16_length] at hn
    exact decodePayload_take .writen p ((payloadFits_iff p).1 h) n hn
  | result => cases hn
  | initHmac key =>
    rw [Instr.operands, List.length_append, Laws.be16_length] at hn
    exact decodePayload_take .initHmac key ((payloadFits_iff key).1 h) n hn
  | resultHmac => cases hn

/-- What an opcode's operand reader accepts. -/
theorem decodeOperands_inv {o : Opcode} {bytes rest : List Byte} {i : Instr}
    (h : o.decodeOperands bytes = .command i rest) :
    i.opcode = o ∧ i.wellFormed = true ∧ i.operands ++ rest = bytes := by
  cases o with
  | init => cases h; exact ⟨rfl, rfl, rfl⟩
  | write =>
    cases bytes with
    | nil => cases h
    | cons d r => cases h; exact ⟨rfl, rfl, rfl⟩
  | writen =>
    obtain ⟨p, rfl, hp, rfl⟩ := decodePayload_inv h
    exact ⟨rfl, (payloadFits_iff p).2 hp, rfl⟩
  | result => cases h; exact ⟨rfl, rfl, rfl⟩
  | initHmac =>
    obtain ⟨key, rfl, hkey, rfl⟩ := decodePayload_inv h
    exact ⟨rfl, (payloadFits_iff key).2 hkey, rfl⟩
  | resultHmac => cases h; exact ⟨rfl, rfl, rfl⟩

theorem decodePayload_ne_reserved (build : List Byte → Instr) (bytes : List Byte) (op : Byte) :
    decodePayload build bytes ≠ .reserved op := by
  unfold decodePayload
  split
  · split <;> exact nofun
  · exact nofun

/-- Past the opcode byte nothing is refused (R94: at a command boundary only). -/
theorem decodeOperands_ne_reserved (o : Opcode) (bytes : List Byte) (op : Byte) :
    o.decodeOperands bytes ≠ .reserved op := by
  cases o with
  | write => cases bytes <;> exact nofun
  | writen => exact decodePayload_ne_reserved _ bytes op
  | initHmac => exact decodePayload_ne_reserved _ bytes op
  | _ => exact nofun

/-! ### Whole frames -/

theorem decode_encode {i : Instr} (h : i.wellFormed = true) (rest : List Byte) :
    decode (encode i ++ rest) = .command i rest := by
  rw [encode_eq, List.cons_append, decode_toByte_cons, decodeOperands_operands h]

theorem decode_encode_take {i : Instr} (h : i.wellFormed = true) {n : Nat} (hn : n < (encode i).length) :
    decode ((encode i).take n) = .held := by
  rw [encode_eq] at hn ⊢
  cases n with
  | zero => rfl
  | succ n =>
    rw [List.take_succ_cons, decode_toByte_cons, decodeOperands_take h (Nat.lt_of_succ_lt_succ hn)]

theorem encode_of_decode {bytes rest : List Byte} {i : Instr} (h : decode bytes = .command i rest) :
    i.wellFormed = true ∧ encode i ++ rest = bytes := by
  cases bytes with
  | nil => cases h
  | cons op tail =>
    rcases reserved_or_toByte op with hreserved | ⟨o, rfl⟩
    · rw [decode_cons_of_reserved hreserved] at h
      cases h
    · rw [decode_toByte_cons] at h
      obtain ⟨rfl, hwf, rfl⟩ := decodeOperands_inv h
      exact ⟨hwf, by rw [encode_eq, List.cons_append]⟩

theorem decode_eq_reserved_iff {bytes : List Byte} {op : Byte} :
    decode bytes = .reserved op ↔ ∃ rest, bytes = op :: rest ∧ 6 ≤ op.toNat := by
  constructor
  · intro h
    cases bytes with
    | nil => cases h
    | cons first tail =>
      rcases reserved_or_toByte first with hreserved | ⟨o, rfl⟩
      · rw [decode_cons_of_reserved hreserved] at h
        cases h
        exact ⟨tail, rfl, hreserved⟩
      · rw [decode_toByte_cons] at h
        exact absurd h (decodeOperands_ne_reserved o tail op)
  · rintro ⟨rest, rfl, hreserved⟩
    exact decode_cons_of_reserved hreserved rest

/-- Settles O1: the opcode byte selects the operand reader, which reads the operands back. -/
theorem decodeOfEncode : Obligations.DecodeOfEncode :=
  fun _ rest h => decode_encode h rest

/-- Settles O2: each operand reader accepts nothing but operands as the encoder writes them. -/
theorem encodeOfDecode : Obligations.EncodeOfDecode :=
  fun _ _ _ h => encode_of_decode h

/-- Settles O3: six closed frames, each evaluated by the decoder. -/
theorem writtenOutFramesDecode : Obligations.WrittenOutFramesDecode := by
  unfold Obligations.WrittenOutFramesDecode
  decide

end Sys2Proof
end

section
/-!
PROOFS. What the step does with each of the decoder's answers (spec/30_encoding.md R90, R94 to R96): run the command on the
state without its frame, hold, or refuse.
-/
namespace Sys2Proof.Machine

section
variable {s : State}

theorem step_of_command {i : Instr} {rest : List Byte} (h : decode s.cmd = .command i rest) :
    step s = exec i (s.consumed rest) := by rw [step, h]

theorem step_of_held (h : decode s.cmd = .held) : step s = .next s := by rw [step, h]

theorem step_of_reserved {op : Byte} (h : decode s.cmd = .reserved op) :
    step s = .refused (.reservedOpcode op) := by rw [step, h]

/-- No command refuses, so a refused step stands at a reserved opcode (R94, R217). -/
theorem decode_of_step_refused {r : Refusal} (h : step s = .refused r) :
    ∃ op, decode s.cmd = .reserved op ∧ r = .reservedOpcode op := by
  cases hd : decode s.cmd with
  | command i rest =>
    obtain ⟨t, ht⟩ := exec_answers i (s.consumed rest)
    rw [step_of_command hd, ht] at h
    cases h
  | held =>
    rw [step_of_held hd] at h
    cases h
  | reserved op =>
    rw [step_of_reserved hd] at h
    cases h
    exact ⟨op, rfl, rfl⟩

theorem step_of_encode {i : Instr} {rest : List Byte} (hwf : i.wellFormed = true) (h : s.cmd = encode i ++ rest) :
    step s = exec i (s.consumed rest) :=
  step_of_command (h ▸ decode_encode hwf rest)

/-- A command leaves CMD alone: only `step` consumes (R96, 10_state.md R40). -/
theorem exec_cmd {i : Instr} {t : State} (h : exec i s = .next t) : t.cmd = s.cmd := by
  rcases exec_cases h with ⟨-, rfl⟩ | ⟨-, rfl⟩
  · exact s.performed_cmd i
  · exact s.misused_cmd i

end

/-- Settles O6: the first branch of `step`. -/
theorem stepRunsTheDecodedCommand : Obligations.StepRunsTheDecodedCommand :=
  fun _ _ _ => step_of_command

/-- Settles O4: the step refuses what the decoder calls reserved, and the type of faults is empty (60_exceptions.md R210). -/
theorem onlyReservedOpcodesAreRefused : Obligations.OnlyReservedOpcodesAreRefused := by
  refine fun s => ⟨fun op rest hcmd hop => ?_, fun r hstep => ?_, fun r => nomatch r⟩
  · exact step_of_reserved (decode_eq_reserved_iff.2 ⟨rest, hcmd, hop⟩)
  · obtain ⟨op, hdecode, rfl⟩ := decode_of_step_refused hstep
    obtain ⟨rest, hcmd, hop⟩ := decode_eq_reserved_iff.1 hdecode
    exact ⟨op, rest, hcmd, hop, rfl⟩

/-- Settles O5: a proper prefix decodes to the hold, and the missing bytes complete it to the encoding. -/
theorem truncatedFrameHoldsUntilCompleted : Obligations.TruncatedFrameHoldsUntilCompleted := by
  intro s i n hwf hn hcmd
  have hcompleted : (s.hostSend ((encode i).drop n)).cmd = encode i ++ [] := by
    rw [State.hostSend_cmd, hcmd, List.take_append_drop, List.append_nil]
  exact ⟨step_of_held (hcmd ▸ decode_encode_take hwf hn), step_of_encode hwf hcompleted⟩

/-- Settles O7: the step removes the frame, and the command keeps what is left. -/
theorem stepConsumesExactlyOneFrame : Obligations.StepConsumesExactlyOneFrame := by
  intro s i rest hwf hcmd
  obtain ⟨t, ht⟩ := exec_answers i (s.consumed rest)
  exact ⟨t, (step_of_encode hwf hcmd).trans ht, exec_cmd ht⟩

end Sys2Proof.Machine
end

section
/-!
PROOFS. The response bytes of every command (spec/30_encoding.md R97), legal or misused.
-/
namespace Sys2Proof.Machine

/-- What a misused command answers (R97, 60_exceptions.md R213): the count still, or twenty free bytes drawn after the data
elements. INIT and INIT_HMAC, which are never a misuse, fall under the last case. -/
def State.misusedAnswer (s : State) (i : Instr) : List Byte :=
  match i with
  | .result => (Config.freeBytes 20 (s.draws + dataDraws)).toList
  | .resultHmac => (Config.freeBytes 20 (s.draws + dataDraws)).toList
  | _ => be16 i.payload.length

theorem State.misused_rsp (s : State) (i : Instr) : (s.misused i).rsp = s.rsp ++ s.misusedAnswer i := by
  cases i with
  | resultHmac => rw [State.misused]; split <;> rfl
  | _ => rfl

/-- A legal result answers `SER(H)` of the state it leaves, whatever is emitted after it. -/
theorem State.answer_eq_ser (s : State) {i : Instr} (hi : i = .result ∨ i = .resultHmac) (bytes : List Byte) :
    s.answer i = (ser ((s.performed i).emit bytes).h).toList := by
  obtain ⟨-, -, hanswer⟩ := s.performed_result hi
  rw [State.emit_h, hanswer]

/-- Settles O31: the two equations `exec_legal` and `exec_misused`, each command's answer read off its case. -/
theorem responsesOfEveryCommand : Obligations.ResponsesOfEveryCommand := by
  intro i s
  cases hmis : isMisuse i s.phase s.mode with
  | false =>
    refine ⟨_, s.answer i, exec_legal hmis, ?_, ?_⟩
    · rw [State.emit_rsp, s.performed_rsp i]
    cases i with
    | init => rfl
    | write d => exact be16_eq 1
    | writen p => exact be16_eq p.length
    | result => exact ⟨Vector.length_toList, fun _ => s.answer_eq_ser (.inl rfl) _⟩
    | initHmac key => rfl
    | resultHmac => exact ⟨Vector.length_toList, fun _ _ => s.answer_eq_ser (.inr rfl) _⟩
  | true =>
    refine ⟨_, s.misusedAnswer i, exec_misused hmis, s.misused_rsp i, ?_⟩
    have hillegal : isMisuse i s.phase s.mode ≠ false := by rw [hmis]; exact nofun
    cases i with
    | init => cases hmis
    | write d => exact be16_eq 1
    | writen p => exact be16_eq p.length
    | result => exact ⟨Vector.length_toList, fun ha => absurd (result_legal_iff.2 ha) hillegal⟩
    | initHmac key => cases hmis
    | resultHmac => exact ⟨Vector.length_toList, fun ha hm => absurd (resultHmac_legal_iff.2 ⟨ha, hm⟩) hillegal⟩

end Sys2Proof.Machine
end

section
/-!
PROOFS. The pseudo-instructions WRITEB and WRITEL (spec/30_encoding.md R99, notes/assumptions/18.md) present the message.
-/
namespace Sys2Proof

theorem pseudoWriteb_payload (m : List Byte) : (pseudoWriteb m).flatMap Instr.payload = m := by
  rw [pseudoWriteb, List.flatMap_map]
  exact List.flatMap_singleton' m

theorem pseudoWriteb_wellFormed (m : List Byte) : ∀ w ∈ pseudoWriteb m, w.isWrite = true ∧ w.wellFormed = true :=
  List.forall_mem_map.2 fun _ _ => ⟨rfl, rfl⟩

theorem writelPieces_payload (pieces : Nat) (m : List Byte) : (writelPieces pieces m).flatMap Instr.payload = m := by
  induction pieces generalizing m with
  | zero => exact List.flatMap_singleton ..
  | succ pieces ih =>
    rw [writelPieces]
    split
    · exact List.flatMap_singleton ..
    · rw [List.flatMap_cons, ih]
      exact List.take_append_drop 65535 m

theorem writen_wellFormed {p : List Byte} (h : p.length ≤ 65535) :
    (Instr.writen p).isWrite = true ∧ (Instr.writen p).wellFormed = true :=
  ⟨rfl, (payloadFits_iff p).2 (Nat.lt_succ_of_le h)⟩

/-- With enough pieces the last one, too, fits its length field. -/
theorem writelPieces_wellFormed {pieces : Nat} {m : List Byte} (h : m.length ≤ 65535 * (pieces + 1)) :
    ∀ w ∈ writelPieces pieces m, w.isWrite = true ∧ w.wellFormed = true := by
  induction pieces generalizing m with
  | zero => exact List.forall_mem_singleton.2 (writen_wellFormed (by omega))
  | succ pieces ih =>
    rw [writelPieces]
    split
    · next hshort => exact List.forall_mem_singleton.2 (writen_wellFormed hshort)
    · have hfirst : (m.take 65535).length ≤ 65535 := List.length_take_le 65535 m
      have hrest : (m.drop 65535).length ≤ 65535 * (pieces + 1) := by rw [List.length_drop]; omega
      exact List.forall_mem_cons.2 ⟨writen_wellFormed hfirst, ih hrest⟩

/-- Settles O18: WRITEL by induction on the number of pieces, of which `m.length` are enough. -/
theorem pseudoWritesPresentTheMessage : Obligations.PseudoWritesPresentTheMessage :=
  fun m => ⟨⟨pseudoWriteb_payload m, pseudoWriteb_wellFormed m⟩,
    ⟨writelPieces_payload m.length m, writelPieces_wellFormed (by omega)⟩⟩

end Sys2Proof
end

section
/-!
PROOFS. The plain commands INIT, WRITE, WRITEN and RESULT (spec/40_plain_commands.md R120 to R128): what each leaves, what
their sessions compute, and RESULT in mode HMAC (43_hmac_commands.md R198).
-/
namespace Sys2Proof.Machine

/-! ### INIT (R120, R121) -/

/-- Settles O8: the fields of `InitOps` and of the two flags. -/
theorem initLoadsTheConstants : Obligations.InitLoadsTheConstants :=
  fun s => ⟨_, exec_init s, rfl, rfl, rfl, rfl, rfl, rfl, rfl, rfl, rfl, rfl, rfl, rfl, rfl, rfl, rfl, rfl⟩

/-- INIT writes constants only, so on what it has left it writes nothing new. -/
theorem State.init_init (s : State) : (s.initOps.begun .plain).initOps.begun .plain = s.initOps.begun .plain := rfl

/-- Settles O9, by `init_init`. -/
theorem initIsIdempotent : Obligations.InitIsIdempotent := by
  intro s t ht
  obtain rfl := Host.Outcome.next.inj ((exec_init s).symm.trans ht)
  rw [exec_init, State.init_init]

/-! ### WRITE and WRITEN (R122 to R125) -/

section
variable (s : State)

theorem State.writeBytes_cnt (p : List Byte) : (s.writeBytes p).cnt = s.cnt + BitVec.ofNat 32 p.length := by
  rw [s.writeBytes_eq, State.setCnt_cnt]

theorem State.writeBytes_off (p : List Byte) : (s.writeBytes p).off.val = (s.off.val + p.length) % 64 := by
  rw [s.writeBytes_eq, State.setCnt_off, s.appendBytes_off]

/-- Written bytes that do not fill the block lie in `B` from `off` on, and `H` and its mark are kept. -/
theorem State.writeBytes_of_lt {p : List Byte} (h : s.off.val + p.length < 64) :
    (s.writeBytes p).h = s.h ∧ (s.writeBytes p).hAny = s.hAny ∧ ∀ i : Fin 64, (s.writeBytes p).b[i] =
      if s.off.val ≤ i.val ∧ i.val < s.off.val + p.length then p.getD (i.val - s.off.val) 0 else s.b[i] := by
  obtain ⟨hchain, hbuffer⟩ := s.appendBytes_of_lt p h
  refine ⟨?_, ?_, ?_⟩
  · rw [s.writeBytes_eq, State.setCnt_h, hchain]
  · rw [s.writeBytes_hAny, if_neg (Nat.not_le.2 h)]
  · rw [s.writeBytes_eq, State.setCnt_b]
    exact hbuffer

/-- One written byte that does not fill the block lies at `B[off]`. -/
theorem State.writeBytes_singleton_b (d : Byte) (h : s.off.val < 63) (i : Fin 64) :
    (s.writeBytes [d]).b[i] = if i = s.off then d else s.b[i] := by
  obtain ⟨-, -, hbuffer⟩ := s.writeBytes_of_lt (p := [d]) (Nat.succ_lt_succ h)
  rw [hbuffer]
  by_cases hi : i = s.off
  · simp [hi]
  · have hout : ¬ (s.off.val ≤ i.val ∧ i.val < s.off.val + 1) := by
      have := mt Fin.ext hi
      omega
    rw [if_neg hi]
    exact if_neg hout

/-- The 64th byte: one compression of the block it completes. -/
theorem State.writeBytes_singleton_of_full (d : Byte) (h : s.off.val = 63) :
    (s.writeBytes [d]).h = compressFn s.h (s.b.set 63 d) ∧ (s.writeBytes [d]).hAny = false := by
  rw [s.writeBytes_eq, State.appendBytes, State.appendBytes, s.append_of_full d h]
  simp [h]

end

/-- Settles O10: a WRITE is one written byte, which does or does not fill the block. -/
theorem writeAppendsOneByte : Obligations.WriteAppendsOneByte := by
  intro s d ha
  have hcontrol := s.writeBytes_sameControl [d]
  refine ⟨_, exec_write_legal s d ha, ?_, s.writeBytes_cnt [d], s.writeBytes_off [d], fun hshort => ?_,
    s.writeBytes_singleton_of_full d, hcontrol.k, hcontrol.ih, hcontrol.phase, hcontrol.mode, hcontrol.misuse,
    hcontrol.cmd⟩
  · rw [State.emit_rsp, hcontrol.rsp, be16_eq]; rfl
  · obtain ⟨hchain, hmark, -⟩ := s.writeBytes_of_lt (p := [d]) (Nat.succ_lt_succ hshort)
    exact ⟨hchain, hmark, s.writeBytes_singleton_b d hshort⟩

/-- Settles O11: a WRITEN is its payload written. -/
theorem writenAppendsThePayload : Obligations.WritenAppendsThePayload := by
  intro s p ha _
  have hcontrol := s.writeBytes_sameControl p
  refine ⟨_, exec_writen_legal s p ha, ?_, s.writeBytes_cnt p, s.writeBytes_off p, s.writeBytes_of_lt, hcontrol.k,
    hcontrol.ih, hcontrol.phase, hcontrol.mode, hcontrol.misuse, hcontrol.cmd⟩
  rw [State.emit_rsp, hcontrol.rsp, be16_eq]

/-- Settles O12: an empty payload passes before the phase is looked at. -/
theorem writenOfNothingOnlyAnswers : Obligations.WritenOfNothingOnlyAnswers := by
  intro s
  rw [exec_writen_nil, be16_eq]
  rfl

/-- Settles O13: both runs write the joined payloads, and differ in what they emit only. -/
theorem incrementalWritesAreEquivalent : Obligations.IncrementalWritesAreEquivalent := by
  intro s ws ha hws
  have hrsp := (s.writeBytes_sameControl (ws.flatMap Instr.payload)).rsp
  refine ⟨_, _, execAll_writes s ws ha hws, exec_writen_legal s _ ha, rfl, rfl, rfl, rfl, fun _ _ => rfl, rfl, rfl, rfl,
    rfl, rfl, rfl, ?_, ?_⟩
  · rw [State.emit_rsp, hrsp]
  · rw [State.emit_rsp, hrsp, be16_eq]

theorem State.Absorbed.emit {s : State} {m : List Byte} (h : s.Absorbed m) (bytes : List Byte) :
    (s.emit bytes).Absorbed m := h.congr rfl rfl rfl rfl

theorem State.Absorbed.begun {s : State} {m : List Byte} (h : s.Absorbed m) (mode : Mode) :
    (s.begun mode).Absorbed m := h.congr rfl rfl rfl rfl

/-- Settles O14, by `Absorbed.writeBytes`. -/
theorem writesExtendTheAbsorbedMessage : Obligations.WritesExtendTheAbsorbedMessage :=
  fun s _ w ha hw hm => ⟨_, exec_isWrite_legal s w hw ha, (hm.writeBytes w.payload).emit _⟩

/-! ### RESULT (R126, R127, R172 to R176) -/

theorem padding_of_le {n : Nat} (hle : n ≤ 55) (bits : BitVec 64) :
    padding n bits = (0x80 :: List.replicate (55 - n) 0x00) ++ be64 bits := by
  have hzeros : padZeroCount n = 55 - n := by unfold padZeroCount; omega
  rw [padding, hzeros, List.cons_append]

/-- From 56 on the padding is the zeros that complete one block, and one more of zeros and the trailer. -/
theorem padding_of_ge {n : Nat} (hge : 56 ≤ n) (hlt : n < 64) (bits : BitVec 64) :
    padding n bits = (0x80 :: List.replicate (63 - n) 0x00) ++ (List.replicate 56 0x00 ++ be64 bits) := by
  have hzeros : padZeroCount n = 63 - n + 56 := by unfold padZeroCount; omega
  rw [padding, hzeros, List.replicate_add, List.append_assoc, List.cons_append]

section
variable {s : State}

/-- With `off` up to 55 the padding completes the block the buffer has begun (R172). -/
theorem State.finish_h_of_le (h : s.off.val ≤ 55) :
    s.finish.h = compressFn s.h
      (zeroPad (s.b.toList.take s.off.val ++ 0x80 :: List.replicate (55 - s.off.val) 0x00 ++ trailer s.cnt)) := by
  have hfilled :
      s.off.val + (((0x80 : Byte) :: List.replicate (55 - s.off.val) 0x00) ++ trailer s.cnt).length = 64 := by
    simp [trailer, be64_length]; omega
  rw [State.finish, s.pad_eq, padding_of_le h, ← trailer,
    s.appendBytes_fill _ (List.append_ne_nil_of_left_ne_nil (List.cons_ne_nil _ _) _) hfilled, List.append_assoc]

/-- With `off` from 56 on the padding takes two blocks (R172). -/
theorem State.finish_h_of_ge (h : 56 ≤ s.off.val) :
    s.finish.h = compressFn
      (compressFn s.h (zeroPad (s.b.toList.take s.off.val ++ 0x80 :: List.replicate (63 - s.off.val) 0x00)))
      (zeroPad (List.replicate 56 0x00 ++ trailer s.cnt)) := by
  have hlt := s.off.isLt
  have hfirst : s.off.val + ((0x80 : Byte) :: List.replicate (63 - s.off.val) 0x00).length = 64 := by simp; omega
  have hoff : (s.appendBytes (0x80 :: List.replicate (63 - s.off.val) 0x00)).off.val = 0 := by
    rw [s.appendBytes_off, hfirst]
  have hsecond : (List.replicate 56 (0x00 : Byte) ++ trailer s.cnt).length = 64 := by
    rw [List.length_append, List.length_replicate, trailer, be64_length]
  rw [State.finish, s.pad_eq, padding_of_ge h hlt, s.appendBytes_append, ← trailer,
    State.appendBytes_fill _ _ (List.ne_nil_of_length_eq_add_one hsecond) (by rw [hoff, hsecond]),
    s.appendBytes_fill _ (List.cons_ne_nil _ _) hfirst, hoff, List.take_zero, List.nil_append]

end

/-- `t` is what RESULT in ACCUM makes of `s` (R126, R127), field by field; `B` is left out, which COMPRESS draws (R155). -/
structure State.Resulted (s t : State) : Prop where
  h : t.h = s.finish.h
  hAny : t.hAny = false
  off : t.off = 0
  cnt : t.cnt = s.cnt
  phase : t.phase = .final
  rsp : t.rsp = s.rsp ++ (ser t.h).toList
  k : t.k = s.k
  ih : t.ih = s.ih
  mode : t.mode = s.mode
  misuse : t.misuse = s.misuse
  cmd : t.cmd = s.cmd

theorem exec_result_resulted {s : State} (ha : s.phase = .accum) : ∃ t, exec .result s = .next t ∧ s.Resulted t := by
  have hcontrol := s.finish_sameControl
  refine ⟨_, exec_result_legal s ha, ?_⟩
  constructor <;> simp [State.digestBytes, State.finish_off, hcontrol.rsp, hcontrol.k, hcontrol.ih, hcontrol.mode,
    hcontrol.misuse, hcontrol.cmd]

/-- The answer is the digest of the absorbed message, of any length (R127, R248). -/
theorem State.Resulted.rsp_of_absorbed {s t : State} {m : List Byte} (h : s.Resulted t) (hm : s.Absorbed m) :
    t.rsp = s.rsp ++ (counterDigest m).toList := by
  rw [h.rsp, h.h, ← State.digestBytes, hm.finish_digest]

/-- Settles O15: `H` by the two lengths of the padding, the rest by `exec_result_resulted`. -/
theorem resultPadsAndAnswers : Obligations.ResultPadsAndAnswers := by
  intro s ha
  obtain ⟨t, hexec, ht⟩ := exec_result_resulted ha
  exact ⟨t, hexec, fun hle => ht.h.trans (State.finish_h_of_le hle), fun hge => ht.h.trans (State.finish_h_of_ge hge),
    ht.hAny, ht.off, ht.cnt, ht.phase, ht.rsp, ht.k, ht.ih, ht.mode, ht.misuse, ht.cmd⟩

/-! ### Sessions (R128) -/

/-- INIT and then write commands, on any state: in ACCUM and PLAIN with the payloads absorbed and the counts answered. -/
theorem execAll_init_writes (s : State) {ws : List Instr} (hws : ∀ w ∈ ws, w.isWrite = true) :
    ∃ u v, exec .init s = .next u ∧ execAll ws u = .next v ∧ v.Absorbed (ws.flatMap Instr.payload) ∧
      v.phase = .accum ∧ v.mode = .plain ∧ v.misuse = s.misuse ∧ v.k = s.k ∧ v.ih = s.ih ∧ v.cmd = s.cmd ∧
      v.rsp = s.rsp ++ ws.flatMap fun w =>
        [BitVec.ofNat 8 (w.payload.length / 256), BitVec.ofNat 8 w.payload.length] := by
  have habsorbed := (s.initOps_absorbed.begun .plain).writeBytes (ws.flatMap Instr.payload)
  have hcontrol := (s.initOps.begun .plain).writeBytes_sameControl (ws.flatMap Instr.payload)
  refine ⟨_, _, exec_init s, execAll_writes _ ws rfl hws, habsorbed.emit _, hcontrol.phase, hcontrol.mode,
    hcontrol.misuse, hcontrol.k, hcontrol.ih, hcontrol.cmd, ?_⟩
  rw [State.emit_rsp, hcontrol.rsp, State.begun_rsp, State.initOps_rsp]

/-- Settles O16: INIT and the writes have absorbed the payloads, and RESULT answers the digest of what was absorbed. -/
theorem plainCommandsComputeSha1 : Obligations.PlainCommandsComputeSha1 := by
  intro s ws hws
  obtain ⟨u, v, hinit, hwrites, habsorbed, hphase, hmode, hmisuse, hk, hih, hcmd, hrsp⟩ := execAll_init_writes s hws
  obtain ⟨t, hresult, ht⟩ := exec_result_resulted hphase
  refine ⟨t, execAll_session .init .result ws s u v t hinit hwrites hresult, ?_, counterDigest_eq_sha1 _, ht.phase,
    ht.mode.trans hmode, ht.misuse.trans hmisuse, ht.off, ht.cnt.trans habsorbed.counted, ht.k.trans hk,
    ht.ih.trans hih, ht.cmd.trans hcmd⟩
  rw [ht.rsp_of_absorbed habsorbed, hrsp]

/-- The digest of no bytes (R120 (d)), one compression evaluated. -/
theorem counterDigest_nil : (counterDigest []).toList =
    [0xda, 0x39, 0xa3, 0xee, 0x5e, 0x6b, 0x4b, 0x0d, 0x32, 0x55,
      0xbf, 0xef, 0x95, 0x60, 0x18, 0x90, 0xaf, 0xd8, 0x07, 0x09] := by decide +kernel

/-- Settles O17: O16's session without a write. -/
theorem initRecoversFromAnyState : Obligations.InitRecoversFromAnyState := by
  intro s
  obtain ⟨t, hrun, hrsp, -, -, -, hmisuse, -⟩ := plainCommandsComputeSha1 s [] nofun
  refine ⟨t, hrun, ?_, hmisuse⟩
  rw [hrsp, List.flatMap_nil, List.flatMap_nil, List.append_nil, counterDigest_nil]

/-! ### RESULT in mode HMAC (43_hmac_commands.md R198) -/

/-- In FINAL RESULT_HMAC is a misuse (R198, R212) that stays there (R214). -/
theorem exec_resultHmac_of_final {s : State} (h : s.phase = .final) :
    ∃ u, exec .resultHmac s = .next u ∧ u.misuse = true ∧ u.phase = .final := by
  have hmis : isMisuse .resultHmac s.phase s.mode = true := by simp [isMisuse, h]
  refine ⟨_, exec_misused hmis, s.misused_misuse _, ?_⟩
  rw [State.misused_phase hmis, h]
  rfl

/-- Settles O28: RESULT asks for ACCUM only, and the FINAL it leaves makes RESULT_HMAC a misuse. -/
theorem resultInHmacModeAnswersTheInnerDigest : Obligations.ResultInHmacModeAnswersTheInnerDigest := by
  intro s m ha _ hm hlength
  obtain ⟨t, hresult, ht⟩ := exec_result_resulted ha
  obtain ⟨u, hexec, hmisuse, hfinal⟩ := exec_resultHmac_of_final ht.phase
  have hbound : (s.k.toList ++ m).length < 2 ^ 32 := by
    rw [List.length_append, Vector.length_toList]; omega
  refine ⟨t, u, hresult, ?_, ht.k, ht.misuse, hexec, hmisuse, hfinal⟩
  rw [ht.rsp_of_absorbed hm, counterDigest_eq_sha1 _ hbound]

end Sys2Proof.Machine
end

section
/-!
PROOFS. COMPRESS_FN as its schedule words and working variables (spec/41_compression.md R144 to R156).
-/
namespace Sys2Proof.Machine

/-! ### The schedule (R144, R145) -/

/-- `W[t]` (R144, R145). -/
def scheduleWord (b : Vector Byte 64) (t : Nat) : Word := (schedule b).getD t 0

theorem scheduleWord_eq_bufWord (b : Vector Byte 64) (t : Fin 16) : scheduleWord b t.val = bufWord b t := by
  obtain ⟨newer, hexpand, -⟩ := expand_spec 64 (List.ofFn (bufWord b)).reverse
  have hprefix : schedule b = List.ofFn (bufWord b) ++ newer.reverse := by
    rw [schedule, hexpand, List.reverse_append, List.reverse_reverse]
  have hlength : t.val < (List.ofFn (bufWord b)).length := by rw [List.length_ofFn]; exact t.isLt
  rw [scheduleWord, hprefix, List.getD_append _ _ _ _ hlength, List.getD_eq_getElem _ _ hlength, List.getElem_ofFn]

theorem scheduleWord_recurrence (b : Vector Byte 64) {t : Nat} (hexpanded : 16 ≤ t) (hlast : t < 80) :
    scheduleWord b t =
      rol32 (scheduleWord b (t - 3) ^^^ scheduleWord b (t - 8) ^^^
        scheduleWord b (t - 14) ^^^ scheduleWord b (t - 16)) 1 := by
  have hlength : (List.ofFn (bufWord b)).reverse.length = 16 := by rw [List.length_reverse, List.length_ofFn]
  exact expand_recurrence 64 _ hlength.ge t (hlength.trans_le hexpanded) (by omega)

/-! ### The stages and the rounds (R146 to R152) -/

/-- Twenty rounds to a stage (R146). -/
theorem stageOf_eq {t s : Nat} (hfirst : 20 * s ≤ t) (hlast : t < 20 * s + 20) : stageOf t = s := by
  unfold stageOf; omega

/-- A function of the stage, told by the bounds on the round instead (R146). -/
theorem apply_stageOf {α : Type} (f : Nat → α) {t : Nat} (h : t < 80) :
    f (stageOf t) = if t < 20 then f 0 else if t < 40 then f 1 else if t < 60 then f 2 else f 3 := by
  split_ifs with h20 h40 h60
  · rw [stageOf_eq (s := 0) (by omega) (by omega)]
  · rw [stageOf_eq (s := 1) (by omega) (by omega)]
  · rw [stageOf_eq (s := 2) (by omega) (by omega)]
  · rw [stageOf_eq (s := 3) (by omega) (by omega)]

theorem roundTemp_eq (w : Word) (v : Working) {t : Nat} (h : t < 80) :
    roundTemp t w v = rol32 v.a 5 +
      (if t < 20 then (v.b &&& v.c) ||| (~~~v.b &&& v.d)
        else if t < 40 then v.b ^^^ v.c ^^^ v.d
        else if t < 60 then (v.b &&& v.c) ||| (v.b &&& v.d) ||| (v.c &&& v.d)
        else v.b ^^^ v.c ^^^ v.d) +
      v.e +
      (if t < 20 then 0x5A827999 else if t < 40 then 0x6ED9EBA1 else if t < 60 then 0x8F1BBCDC else 0xCA62C1D6) + w := by
  rw [roundTemp, apply_stageOf (stageFn · v.b v.c v.d) h, apply_stageOf stageConst h]
  rfl

/-- Eighty rounds of the schedule's words, fed forward (R154, R156). -/
theorem compressFn_eq_feedForward_workingAt (c : Chain) (block : Vector Byte 64) :
    compressFn c block = feedForward c (workingAt (scheduleWord block) c 80) := by
  have hwords : ∀ i < (schedule block).length, (schedule block).getD i 0 = scheduleWord block (0 + i) :=
    fun i _ => congrArg (scheduleWord block) (Nat.zero_add i).symm
  have hrounds := rounds_eq_workingAt (scheduleWord block) c (schedule block) 0 hwords
  rw [schedule_length] at hrounds
  rw [compressFn]
  exact congrArg (feedForward c) hrounds

/-- Settles O19: `W` is the schedule, and the variables are the model's before each round. -/
theorem compressionFollowsTheEightyRounds : Obligations.CompressionFollowsTheEightyRounds := by
  intro c block
  refine ⟨scheduleWord block, fun t => (workingAt (scheduleWord block) c t).a,
    fun t => (workingAt (scheduleWord block) c t).b, fun t => (workingAt (scheduleWord block) c t).c,
    fun t => (workingAt (scheduleWord block) c t).d, fun t => (workingAt (scheduleWord block) c t).e,
    scheduleWord_eq_bufWord block, fun _ => scheduleWord_recurrence block, rfl, rfl, rfl, rfl, rfl,
    fun t ht => ⟨?_, rfl, rfl, rfl, rfl⟩, compressFn_eq_feedForward_workingAt c block⟩
  exact roundTemp_eq (scheduleWord block t) (workingAt (scheduleWord block) c t) ht

end Sys2Proof.Machine
end

section
/-!
PROOFS. The length trailer (spec/42_padding_digest.md R171): its bytes as slices of `cnt`, and the number `8 * cnt` they
spell. The digest bytes (R175).
-/
namespace Sys2Proof.Machine

/-! ### `8 * cnt` (R171) -/

/-- 35 bits hold the product, so 64 do not truncate it (92_eei_decisions.md D12). -/
theorem bitLength_toNat (cnt : Word) : (bitLength cnt).toNat = 8 * cnt.toNat := by
  have hcnt : cnt.toNat < 2 ^ 32 := cnt.isLt
  have hwide : (cnt.zeroExtend 64).toNat = cnt.toNat := BitVec.toNat_setWidth_of_le (by decide)
  have hfits : (cnt.zeroExtend 64).toNat * (8 : BitVec 64).toNat < 2 ^ 64 := by
    rw [hwide]; show cnt.toNat * 8 < 2 ^ 64; omega
  rw [bitLength, BitVec.toNat_mul_of_lt hfits, hwide]
  exact Nat.mul_comm cnt.toNat 8

/-- The product is `cnt` moved up three places. -/
theorem bitLength_getLsbD (cnt : Word) (i : Nat) :
    (bitLength cnt).getLsbD i = (!decide (i < 3) && cnt.getLsbD (i - 3)) := by
  have hshift : (bitLength cnt).toNat = cnt.toNat <<< 3 := by
    rw [bitLength_toNat, Nat.shiftLeft_eq, Nat.mul_comm]
  have hpast : decide (i ≥ 3) = !decide (i < 3) := (decide_eq_decide.mpr Nat.not_lt.symm).trans decide_not
  rw [← BitVec.testBit_toNat, ← BitVec.testBit_toNat, hshift, Nat.testBit_shiftLeft, hpast]

/-- A byte from bit 3 up lies three places lower in `cnt`. -/
theorem bitLength_extract_add_three (cnt : Word) (start : Nat) :
    (bitLength cnt).extractLsb' (start + 3) 8 = (cnt >>> start).setWidth 8 := by
  ext i hi
  have hplace : start + 3 + i - 3 = start + i := by omega
  have hpast : ¬ start + 3 + i < 3 := by omega
  simp [bitLength_getLsbD, hplace, hpast]

/-- `cnt` has no bit from 32 up. -/
theorem bitLength_extract_of_ge (cnt : Word) (start : Nat) (h : 32 ≤ start) :
    (bitLength cnt).extractLsb' (start + 3) 8 = 0x00#8 := by
  rw [bitLength_extract_add_three, BitVec.ushiftRight_eq_zero h, BitVec.setWidth_zero]

/-- The lowest byte begins with the three zeros shifted in. -/
theorem bitLength_extract_zero (cnt : Word) : (bitLength cnt).extractLsb' 0 8 = (cnt <<< 3).setWidth 8 := by
  ext i hi
  simp [bitLength_getLsbD]

/-! ### The trailer (R171) -/

theorem trailer_eq (cnt : Word) :
    trailer cnt = [0x00#8, 0x00, 0x00, (cnt >>> 29).setWidth 8, (cnt >>> 21).setWidth 8, (cnt >>> 13).setWidth 8,
      (cnt >>> 5).setWidth 8, (cnt <<< 3).setWidth 8] := by
  calc trailer cnt
      = [(bitLength cnt).extractLsb' (53 + 3) 8, (bitLength cnt).extractLsb' (45 + 3) 8,
          (bitLength cnt).extractLsb' (37 + 3) 8, (bitLength cnt).extractLsb' (29 + 3) 8,
          (bitLength cnt).extractLsb' (21 + 3) 8, (bitLength cnt).extractLsb' (13 + 3) 8,
          (bitLength cnt).extractLsb' (5 + 3) 8, (bitLength cnt).extractLsb' 0 8] := rfl
    _ = _ := by
      rw [bitLength_extract_of_ge cnt 53 (by decide), bitLength_extract_of_ge cnt 45 (by decide),
        bitLength_extract_of_ge cnt 37 (by decide), bitLength_extract_add_three cnt 29,
        bitLength_extract_add_three cnt 21, bitLength_extract_add_three cnt 13, bitLength_extract_add_three cnt 5,
        bitLength_extract_zero]
      rfl

/-- The first `n` bytes of `be64` spell what is left of the number above them: each byte moves the bytes before it up
by 8 bits and is the remainder. -/
theorem foldl_leadingBytes (v : BitVec 64) {n : Nat} (h : n ≤ 8) :
    ((List.range n).map fun j => v.extractLsb' (56 - 8 * j) 8).foldl (fun m b => 256 * m + b.toNat) 0 =
      v.toNat >>> (64 - 8 * n) := by
  induction n with
  | zero => exact (Nat.shiftRight_eq_zero _ _ v.isLt).symm
  | succ n ih =>
    have hbefore : 64 - 8 * n = (56 - 8 * n) + 8 := by omega
    have hafter : 64 - 8 * (n + 1) = 56 - 8 * n := by omega
    rw [List.range_succ, List.map_append, List.foldl_append, ih (Nat.le_of_succ_le h), List.map_singleton,
      List.foldl_cons, List.foldl_nil, BitVec.extractLsb'_toNat, hbefore, hafter, Nat.shiftRight_add,
      Nat.shiftRight_eq_div_pow _ 8]
    exact Nat.div_add_mod (v.toNat >>> (56 - 8 * n)) 256

theorem be64_foldl (v : BitVec 64) : (be64 v).foldl (fun m b => 256 * m + b.toNat) 0 = v.toNat :=
  foldl_leadingBytes v (Nat.le_refl 8)

/-- Settles O23: the bytes of `8 * cnt` are slices of `cnt`, and all eight spell the product. -/
theorem trailerSpellsTheBitLength : Obligations.TrailerSpellsTheBitLength :=
  fun cnt => ⟨trailer_eq cnt, (be64_foldl (bitLength cnt)).trans (bitLength_toNat cnt)⟩

/-! ### The digest bytes (R175) -/

theorem ser_getElem (c : Chain) {i k : Nat} (hi : i < 5) (hk : k < 4) :
    (ser c)[4 * i + k] = byteOf k (c.word i) := by
  have hword : (4 * i + k) / 4 = i := by omega
  have hbyte : (4 * i + k) % 4 = k := by omega
  rw [ser, Vector.getElem_ofFn, hword, hbyte]

/-- Settles O22: byte `k` of each of the five words. -/
theorem digestBytesAreBigEndianWords : Obligations.DigestBytesAreBigEndianWords :=
  fun c k =>
    ⟨ser_getElem c (i := 0) (by decide) k.isLt, ser_getElem c (i := 1) (by decide) k.isLt,
      ser_getElem c (i := 2) (by decide) k.isLt, ser_getElem c (i := 3) (by decide) k.isLt,
      ser_getElem c (i := 4) (by decide) k.isLt⟩

end Sys2Proof.Machine
end

section
/-!
PROOFS. The HMAC commands INIT_HMAC and RESULT_HMAC (spec/43_hmac_commands.md R190 to R197): the key block, what each command
leaves, and what a session of them computes.
-/
namespace Sys2Proof.Machine

/-! ### The key block (R190, R191) -/

theorem xorBlock_getElem (c : Byte) (block : Vector Byte 64) (i : Fin 64) : (xorBlock c block)[i] = block[i] ^^^ c := by
  simp [xorBlock]

theorem keyBlock_of_long {key : List Byte} (h : 64 < key.length) : keyBlock key = zeroPad (sha1 key).toList := if_pos h

theorem keyBlock_of_short {key : List Byte} (h : ¬ 64 < key.length) : keyBlock key = zeroPad key := if_neg h

theorem keyBlock_getElem (key : List Byte) (i : Fin 64) :
    (keyBlock key)[i] = if 64 < key.length then (sha1 key).toList.getD i.val 0 else key.getD i.val 0 := by
  split
  case isTrue hlong => rw [keyBlock_of_long hlong, Fin.getElem_fin, zeroPad_getElem]
  case isFalse hshort => rw [keyBlock_of_short hshort, Fin.getElem_fin, zeroPad_getElem]

/-- A digest has 20 bytes, so as a key it is not hashed again (R190 corner case (d)). -/
theorem keyBlock_sha1 {key : List Byte} (h : 64 < key.length) : keyBlock (sha1 key).toList = keyBlock key := by
  have hshort : ¬ 64 < (sha1 key).toList.length := by rw [Vector.length_toList]; decide
  rw [keyBlock_of_short hshort, keyBlock_of_long h]

/-! ### INIT_HMAC (R190) -/

/-- `t` is what INIT_HMAC makes of `s` (R190), field by field; `B` is left out, which COMPRESS draws (R155). -/
structure State.HmacBegun (s : State) (key : List Byte) (t : State) : Prop where
  k : t.k = xorBlock ipadByte (keyBlock key)
  h : t.h = compressFn iv t.k
  hAny : t.hAny = false
  off : t.off = 0
  cnt : t.cnt = 64
  phase : t.phase = .accum
  mode : t.mode = .hmac
  ih : t.ih = s.ih
  misuse : t.misuse = s.misuse
  rsp : t.rsp = s.rsp
  cmd : t.cmd = s.cmd
  absorbed : t.Absorbed t.k.toList

/-- The key path writes `K` and the data path only, and feeding `K` begins the hash afresh. -/
theorem exec_initHmac_begun (s : State) {key : List Byte} (hkey : key.length < 65536) :
    ∃ t, exec (.initHmac key) s = .next t ∧ s.HmacBegun key t := by
  obtain ⟨t, hexec, habsorbed⟩ := exec_initHmac_absorbed s key
  refine ⟨t, hexec, ?_⟩
  obtain rfl := Host.Outcome.next.inj ((exec_initHmac s key).symm.trans hexec)
  obtain ⟨hih, hmisuse, hrsp, hcmd⟩ := s.loadKeyBlock_frame key
  have hcontrol := ((s.loadKeyBlock key).xorKey ipadByte).feedKey_sameControl
  obtain ⟨hchain, hoff, hcnt⟩ := ((s.loadKeyBlock key).xorKey ipadByte).feedKey_data
  exact {
    k := by rw [State.begun_k, hcontrol.k, State.xorKey_k, s.loadKeyBlock_k key hkey]
    h := by rw [State.begun_h, State.begun_k, hcontrol.k, hchain]
    hAny := State.feedKey_hAny _
    off := hoff
    cnt := hcnt
    phase := rfl
    mode := rfl
    ih := hcontrol.ih.trans hih
    misuse := hcontrol.misuse.trans hmisuse
    rsp := hcontrol.rsp.trans hrsp
    cmd := hcontrol.cmd.trans hcmd
    absorbed := habsorbed }

/-- Settles O24: the fields of `HmacBegun`, `K` byte by byte. -/
theorem initHmacStartsTheInnerHash : Obligations.InitHmacStartsTheInnerHash := by
  intro s key hkey
  obtain ⟨t, hexec, ht⟩ := exec_initHmac_begun s hkey
  refine ⟨t, hexec, fun i => ?_, ht.h, ht.hAny, ht.off, ht.cnt, ht.phase, ht.mode, ht.ih, ht.misuse, ht.rsp, ht.cmd⟩
  rw [ht.k, xorBlock_getElem, keyBlock_getElem]
  rfl

/-- Settles O25: the two keys have one key block, and INIT_HMAC leaves nothing else of the key. -/
theorem longKeyEqualsItsDigestAsKey : Obligations.LongKeyEqualsItsDigestAsKey := by
  intro s key hlong hkey
  have hdigest : (sha1 key).toList.length < 65536 := by rw [Vector.length_toList]; decide
  obtain ⟨t, htexec, ht⟩ := exec_initHmac_begun s hkey
  obtain ⟨u, huexec, hu⟩ := exec_initHmac_begun s hdigest
  have hk : t.k = u.k := by rw [ht.k, hu.k, keyBlock_sha1 hlong]
  have hchain : t.h = u.h := by rw [ht.h, hu.h, hk]
  exact ⟨t, u, htexec, huexec, hk, hchain, ht.off.trans hu.off.symm, ht.cnt.trans hu.cnt.symm,
    ht.phase.trans hu.phase.symm, ht.mode.trans hu.mode.symm, ht.ih.trans hu.ih.symm, ht.misuse.trans hu.misuse.symm,
    ht.rsp.trans hu.rsp.symm, ht.cmd.trans hu.cmd.symm⟩

/-! ### RESULT_HMAC (R194, R195) -/

/-- `t` is what RESULT_HMAC in ACCUM and HMAC makes of `s` (R194), field by field; `B` is left out, which COMPRESS draws
(R155). -/
structure State.HmacResulted (s t : State) : Prop where
  ih : t.ih = s.finish.digestBytes
  k : t.k = xorBlock ipadToOpad s.k
  h : ser t.h = sha1 (t.k.toList ++ t.ih.toList)
  hAny : t.hAny = false
  off : t.off = 0
  cnt : t.cnt = 84
  phase : t.phase = .final
  rsp : t.rsp = s.rsp ++ (ser t.h).toList
  mode : t.mode = s.mode
  misuse : t.misuse = s.misuse
  cmd : t.cmd = s.cmd

/-- The inner half sets `IH` and `K`; the outer half hashes the two and keeps them. -/
theorem exec_resultHmac_resulted {s : State} (ha : s.phase = .accum) (hm : s.mode = .hmac) :
    ∃ t, exec .resultHmac s = .next t ∧ s.HmacResulted t := by
  obtain ⟨hk, hih, -, hmode, hmisuse, hrsp, hcmd⟩ := s.closeInner_frame
  have houter := s.closeInner.runOuter_sameControl
  refine ⟨_, exec_resultHmac_legal s ha hm, ?_⟩
  exact {
    ih := by simp [houter.ih, hih]
    k := by simp [houter.k, hk]
    h := by simpa [houter.k, houter.ih, State.digestBytes] using s.closeInner.runOuter_digest
    hAny := by simp [State.runOuter_hAny]
    off := by simp [State.runOuter_off]
    cnt := by simp [State.runOuter_cnt]
    phase := rfl
    rsp := by simp [houter.rsp, hrsp, State.digestBytes]
    mode := by simp [houter.mode, hmode]
    misuse := by simp [houter.misuse, hmisuse]
    cmd := by simp [houter.cmd, hcmd] }

/-- Settles O26: RESULT answers the digest of the same finished state that `IH` keeps. -/
theorem resultHmacRunsTheOuterHash : Obligations.ResultHmacRunsTheOuterHash := by
  intro s ha hm
  obtain ⟨t, hexec, ht⟩ := exec_resultHmac_resulted ha hm
  refine ⟨t, hexec, fun u hresult => ?_, fun i => ?_, ht.h, ht.rsp, ht.hAny, ht.off, ht.cnt, ht.phase,
    ht.mode.trans hm, ht.misuse, ht.cmd⟩
  · obtain ⟨v, hv, hresulted⟩ := exec_result_resulted ha
    obtain rfl := Host.Outcome.next.inj (hv.symm.trans hresult)
    rw [hresulted.rsp, hresulted.h, ht.ih, State.digestBytes]
  · rw [ht.k, xorBlock_getElem]
    rfl

/-! ### Sessions (R197) -/

/-- INIT_HMAC and then write commands, on any state: in ACCUM and HMAC with ipad and the payloads absorbed and the counts
answered. -/
theorem execAll_initHmac_writes (s : State) {key : List Byte} {ws : List Instr} (hkey : key.length < 65536)
    (hws : ∀ w ∈ ws, w.isWrite = true) :
    ∃ u v, exec (.initHmac key) s = .next u ∧ execAll ws u = .next v ∧
      v.Absorbed ((xorBlock ipadByte (keyBlock key)).toList ++ ws.flatMap Instr.payload) ∧
      v.k = xorBlock ipadByte (keyBlock key) ∧
      v.phase = .accum ∧ v.mode = .hmac ∧ v.misuse = s.misuse ∧ v.cmd = s.cmd ∧
      v.rsp = s.rsp ++ ws.flatMap fun w =>
        [BitVec.ofNat 8 (w.payload.length / 256), BitVec.ofNat 8 w.payload.length] := by
  obtain ⟨u, hinit, hu⟩ := exec_initHmac_begun s hkey
  have habsorbed := hu.absorbed.writeBytes (ws.flatMap Instr.payload)
  have hcontrol := u.writeBytes_sameControl (ws.flatMap Instr.payload)
  rw [hu.k] at habsorbed
  refine ⟨u, _, hinit, execAll_writes u ws hu.phase hws, habsorbed.emit _, hcontrol.k.trans hu.k,
    hcontrol.phase.trans hu.phase, hcontrol.mode.trans hu.mode, hcontrol.misuse.trans hu.misuse,
    hcontrol.cmd.trans hu.cmd, ?_⟩
  rw [State.emit_rsp, hcontrol.rsp, hu.rsp]

/-- Settles O27: `IH` is the digest of ipad and the message, and the outer hash takes it after opad. -/
theorem hmacCommandsComputeHmac : Obligations.HmacCommandsComputeHmac := by
  intro s key ws hkey hws hlength
  obtain ⟨u, v, hinit, hwrites, habsorbed, hipad, hphase, hmode, hmisuse, hcmd, hrsp⟩ :=
    execAll_initHmac_writes s hkey hws
  obtain ⟨t, hresult, ht⟩ := exec_resultHmac_resulted hphase hmode
  have hbound : ((xorBlock ipadByte (keyBlock key)).toList ++ ws.flatMap Instr.payload).length < 2 ^ 32 := by
    rw [List.length_append, Vector.length_toList]; omega
  have hih : t.ih = sha1 ((xorBlock ipadByte (keyBlock key)).toList ++ ws.flatMap Instr.payload) := by
    rw [ht.ih, habsorbed.finish_digest, counterDigest_eq_sha1 _ hbound]
  have hopad : t.k = xorBlock opadByte (keyBlock key) := by rw [ht.k, hipad, xorBlock_ipadToOpad]
  have hdigest : ser t.h = hmac key (ws.flatMap Instr.payload) := by rw [ht.h, hopad, hih, hmac]
  refine ⟨t, execAll_session (.initHmac key) .resultHmac ws s u v t hinit hwrites hresult, ?_, hopad, hih, ht.cnt,
    ht.off, ht.phase, ht.mode.trans hmode, ht.misuse.trans hmisuse, ht.cmd.trans hcmd⟩
  rw [ht.rsp, hrsp, hdigest]

end Sys2Proof.Machine
end

section
/-!
PROOFS. Misuse in place of exceptions (spec/60_exceptions.md R212 to R214, R217): the misuse bit, the next phase and mode, and
what a misused command leaves and lets the host read.
-/
namespace Sys2Proof.Machine

/-! ### The misuse bit (R212) -/

theorem phase_ne_accum_iff {phase : Phase} : phase ≠ .accum ↔ phase = .uninit ∨ phase = .final := by
  cases phase <;> decide

theorem mode_ne_hmac_iff {mode : Mode} : mode ≠ .hmac ↔ mode = .plain := by
  cases mode <;> decide

/-- RESULT_HMAC is a misuse outside ACCUM, and in ACCUM when the mode is PLAIN (R212). -/
theorem resultHmac_isMisuse_iff {phase : Phase} {mode : Mode} : isMisuse .resultHmac phase mode = true ↔
    phase = .uninit ∨ phase = .final ∨ (phase = .accum ∧ mode = .plain) :=
  calc isMisuse .resultHmac phase mode = true
      ↔ phase ≠ .accum ∨ mode ≠ .hmac := decide_eq_true_iff
    _ ↔ phase ≠ .accum ∨ (phase = .accum ∧ mode ≠ .hmac) := by
      rw [or_and_left, and_iff_right (ne_or_eq phase .accum)]
    _ ↔ phase = .uninit ∨ phase = .final ∨ (phase = .accum ∧ mode = .plain) := by
      rw [phase_ne_accum_iff, mode_ne_hmac_iff, or_assoc]

/-- A legal command keeps the misuse bit and a misused one sets it (10_state.md R29). -/
theorem exec_misuse_iff {i : Instr} {s t : State} (h : exec i s = .next t) :
    t.misuse = true ↔ s.misuse = true ∨ isMisuse i s.phase s.mode = true := by
  rcases exec_cases h with ⟨hlegal, rfl⟩ | ⟨hmis, rfl⟩
  · simp [hlegal]
  · simp [hmis]

/-- Settles O29: `exec_misuse_iff`, the table of R212 read command by command. -/
theorem misuseBitFollowsTheTable : Obligations.MisuseBitFollowsTheTable := by
  intro i s
  obtain ⟨t, ht⟩ := exec_answers i s
  refine ⟨t, ht, (exec_misuse_iff ht).trans (or_congr_right ?_)⟩
  cases i with
  | init => exact iff_of_false nofun id
  | write d => exact decide_eq_true_iff.trans phase_ne_accum_iff
  | writen p => exact decide_eq_true_iff.trans (and_congr Nat.one_le_iff_ne_zero.symm phase_ne_accum_iff)
  | result => exact decide_eq_true_iff.trans phase_ne_accum_iff
  | initHmac key => exact iff_of_false nofun id
  | resultHmac => exact resultHmac_isMisuse_iff

/-! ### The next phase and mode (R214) -/

/-- The mode has two writers, INIT and INIT_HMAC (10_state.md R28). -/
theorem State.performed_mode (s : State) {i : Instr} (hinit : i ≠ .init) (hkey : ∀ key, i ≠ .initHmac key) :
    (s.performed i).mode = s.mode := by
  cases i with
  | init => exact absurd rfl hinit
  | write d => exact (s.writeBytes_sameControl [d]).mode
  | writen p => exact (s.writeBytes_sameControl p).mode
  | result => rw [State.performed, State.finalized_mode, s.finish_sameControl.mode]
  | initHmac key => exact absurd rfl (hkey key)
  | resultHmac =>
    obtain ⟨-, -, -, hmode, -⟩ := s.closeInner_frame
    rw [State.performed, State.finalized_mode, s.closeInner.runOuter_sameControl.mode, hmode]

/-- A result that is legal stands in ACCUM, so the table's entry for every phase but UNINIT applies. -/
theorem State.performed_result_phase {s : State} {i : Instr} (hi : i = .result ∨ i = .resultHmac)
    (ha : s.phase = .accum) : (s.performed i).phase = if s.phase = .uninit then .uninit else .final := by
  obtain ⟨hfinal, -⟩ := s.performed_result hi
  rw [hfinal, ha]; rfl

/-- Settles O30: legal commands by `performed`, misuses by `misused`; both resets are `State.afterReset`. -/
theorem nextPhaseAndModeTable : Obligations.NextPhaseAndModeTable := by
  refine ⟨fun i s => ?_, rfl, rfl, fun _ => ⟨rfl, rfl⟩⟩
  cases hmis : isMisuse i s.phase s.mode with
  | false =>
    refine ⟨_, exec_legal hmis, ?_⟩
    simp only [State.emit_phase, State.emit_mode]
    cases i with
    | init => exact ⟨rfl, rfl⟩
    | write d => exact ⟨(s.writeBytes_sameControl [d]).phase, s.performed_mode nofun nofun⟩
    | writen p => exact ⟨(s.writeBytes_sameControl p).phase, s.performed_mode nofun nofun⟩
    | result =>
      exact ⟨State.performed_result_phase (.inl rfl) (result_legal_iff.1 hmis), s.performed_mode nofun nofun⟩
    | initHmac key => exact ⟨rfl, rfl⟩
    | resultHmac =>
      obtain ⟨ha, -⟩ := resultHmac_legal_iff.1 hmis
      exact ⟨State.performed_result_phase (.inr rfl) ha, s.performed_mode nofun nofun⟩
  | true =>
    refine ⟨_, exec_misused hmis, ?_⟩
    cases i with
    | init => cases hmis
    | write d => exact ⟨rfl, rfl⟩
    | writen p => exact ⟨rfl, rfl⟩
    | result => exact ⟨State.misused_phase hmis, s.misused_mode _⟩
    | initHmac key => cases hmis
    | resultHmac => exact ⟨State.misused_phase hmis, s.misused_mode _⟩

/-! ### What a misused command leaves (R213, R199) -/

/-- `misuse()` does not write the phase; RESULT_HMAC alone moves it, from ACCUM (R199). -/
theorem State.misused_phase_eq (s : State) (i : Instr) :
    (s.misused i).phase = if i = .resultHmac ∧ s.phase = .accum then .final else s.phase := by
  cases i with
  | resultHmac =>
    by_cases ha : s.phase = .accum
    · rw [State.misused, if_pos ha, if_pos ⟨rfl, ha⟩]; rfl
    · rw [State.misused, if_neg ha, if_neg fun h => ha h.2]; rfl
  | _ => exact (if_neg fun h => nomatch h.1).symm

/-- Settles O32: the frame of `misused` and its phase. -/
theorem misusedCommandsComplete : Obligations.MisusedCommandsComplete :=
  fun i s hmis => ⟨_, exec_misused hmis, s.misused_misuse i, s.misused_hAny i, s.misused_mode i, s.misused_cmd i,
    s.misused_phase_eq i⟩

/-- `misuse()` writes every data element from the draw counter, so it forgets what they held (R213). -/
theorem State.takeMisuse_congr {s t : State} (hphase : s.phase = t.phase) (hmode : s.mode = t.mode)
    (hrsp : s.rsp = t.rsp) (hcmd : s.cmd = t.cmd) (hdraws : s.draws = t.draws) : s.takeMisuse = t.takeMisuse := by
  rw [State.takeMisuse, State.takeMisuse, hphase, hmode, hrsp, hcmd, hdraws]

/-- What a misused command does after `misuse()` depends on the phase only. -/
theorem State.misused_congr {s t : State} (hphase : s.phase = t.phase) (htake : s.takeMisuse = t.takeMisuse)
    (i : Instr) : s.misused i = t.misused i := by
  unfold State.misused
  rw [hphase, htake]

/-- Settles O33: both runs are the misuse, and after `misuse()` they stand in the same state. -/
theorem misuseForgetsAllData : Obligations.MisuseForgetsAllData := by
  intro i s t hmis hphase hmode _ hrsp hcmd hdraws
  have htake : s.takeMisuse = t.takeMisuse := State.takeMisuse_congr hphase hmode hrsp hcmd hdraws
  have hmis' : isMisuse i t.phase t.mode = true := by rw [← hphase, ← hmode, hmis]
  rw [exec_misused hmis, exec_misused hmis', State.misused_congr hphase htake]

/-! ### DIGEST after a misuse (R213, 10_state.md R31) -/

/-- While `H` is `any`, DIGEST in FINAL is `SER` of free words, and the read numbers the next draws five on. -/
theorem State.readDigest_of_final_any {s : State} (hcmd : s.cmd = []) (hphase : s.phase = .final)
    (hany : s.hAny = true) : s.readDigest = some (ser (Chain.free s.draws), { s with draws := s.draws + 5 }) := by
  rw [State.readDigest_of_final hcmd hphase, s.readChain_any hany]

/-- Settles O47: a read moves the draw counter only, so the second read meets the same phase and mark as the first. -/
theorem digestAfterMisuseIsDrawnAtEveryRead : Obligations.DigestAfterMisuseIsDrawnAtEveryRead := by
  intro i s hmis hcmd
  have hempty : (s.misused i).cmd = [] := (s.misused_cmd i).trans hcmd
  have hany : (s.misused i).hAny = true := s.misused_hAny i
  exact ⟨_, exec_misused hmis,
    fun hfinal => ⟨_, _, State.readDigest_of_final_any hempty hfinal hany,
      State.readDigest_of_final_any hempty hfinal hany⟩,
    fun hne => ⟨_, _, State.readDigest_of_ne_final hempty hne, State.readDigest_of_ne_final hempty hne⟩⟩

end Sys2Proof.Machine
end
